-- ==== Sys2Proof/Word.lean ====
section
/-! DEFINITION. The words of this hardware: bits and bit sequences (00_scope.md R9, R10). There is no register or
address width, so there is no fixed machine word: port values and lengths are naturals, read as unsigned numbers
(00_scope.md R11), and the widths that bound them come from the parameters CAP and EW. -/

namespace Sys2Proof

/-- One bit: `false` is 0 and `true` is 1. -/
abbrev Bit := Bool

/-- A bit sequence, first position first (00_scope.md R10). -/
abbrev Bits := List Bit

end Sys2Proof
end

