-- ==== Sys2Proof/Config.lean ====
section
/-! DEFINITION. The two static parameters of an instance, CAP and EW (00_scope.md R6, R7), and the recommended
instance. The block leaves no value of a response open (00_scope.md R14 (6)), so there is no free value here. -/

namespace Sys2Proof

/-- The parameters fixed when the block is instantiated. Both are OPEN in the spec: every value the spec allows is a
value of this type. -/
structure Config where
  /-- CAP, the largest sequence length in elements; `none` is "unbounded" (R6). -/
  cap : Option Nat
  /-- EW, the number of bits that carry one element (R7). -/
  ew : Nat
  /-- EW is a natural number >= 1 (R7). -/
  ew_pos : 1 ≤ ew := by decide
  deriving DecidableEq, Repr

/-- The recommended instance: `CAP = 21`, `EW = 1` (R6, R7). DESIGN CHOICE (log 2) as the instance `State.reset`
stands for. -/
def Config.recommended : Config := { cap := some 21, ew := 1 }

/-- A sequence of `m` elements fits the ports: `m <= CAP`, always true when CAP is unbounded (R6). -/
def Config.fits (c : Config) (m : Nat) : Bool :=
  match c.cap with
  | none => true
  | some k => decide (m ≤ k)

end Sys2Proof
end

