-- ==== Sys2Proof/Machine/ParityCheckMatrix.lean ====
section
/-! DEFINITION. The sub-block `parity_check_matrix` (40_parity_check_matrix.md): parity counts, position classes,
coverage, the matrix and its checks. Pure functions; positions count from 1 (70_reset_and_hazards.md R173). -/

namespace Sys2Proof.Machine

/-- The loop `while not p r: r <- r + 1`, started at `r`, for at most `fuel` turns. -/
def leastFrom (p : Nat → Bool) : Nat → Nat → Nat
  | 0, r => r
  | fuel + 1, r => if p r then r else leastFrom p fuel (r + 1)

/-- `plan(n)`: the least `r` with `2^r >= n + r + 1` (R90). The loop needs at most `n + 1` turns. -/
def plan (n : Nat) : Nat :=
  leastFrom (fun r => decide (n + r + 1 ≤ 2 ^ r)) (n + 1) 0

/-- `rlen(m)`: the least `r` with `2^r >= m + 1` (R93). The loop needs at most `m` turns. -/
def rlen (m : Nat) : Nat :=
  leastFrom (fun r => decide (m + 1 ≤ 2 ^ r)) m 0

/-- `is_pow2(j)` for `j >= 1`, in the form `(j AND (j - 1)) = 0` (R95). -/
def isPow2 (j : Nat) : Bool :=
  decide (1 ≤ j) && (j &&& (j - 1)) == 0

/-- `m` is a valid codeword length: `m = n + plan(n)` for the only candidate `n = m - rlen(m)` (R100). No operation
refuses another length (42_hamming_decoder.md R128). -/
def isCodewordLength (m : Nat) : Bool :=
  m - rlen m + plan (m - rlen m) == m

/-- The positions `1, 2, ..., m` of a sequence of length `m` (00_scope.md R10). -/
def positions (m : Nat) : List Nat :=
  List.range' 1 m

/-- The data positions of `[1, m]`, ascending (R96). -/
def dataPositions (m : Nat) : List Nat :=
  (positions m).filter fun j => !isPow2 j

/-- `dpos(k)`, `k >= 1`: the `k`-th data position, ascending (R96). It is found among the positions up to `2 * k + 1`,
which hold at least `k` data positions. -/
def dpos (k : Nat) : Nat :=
  (dataPositions (2 * k + 1)).getD (k - 1) 0

/-- Check `i` covers position `j`: `(j AND 2^i) != 0` (R97). -/
def covers (i j : Nat) : Bool :=
  (j &&& 2 ^ i) != 0

/-- `cover(i, m)`: the positions of `[1, m]` that check `i` covers (R97). -/
def cover (i m : Nat) : List Nat :=
  (positions m).filter fun j => covers i j

/-- `c{j}`, the element at position `j`, positions from 1 (00_scope.md R10). A position outside the sequence reads as 0,
which no rule uses (log 10). -/
def bitAt (c : Bits) : Nat → Bit
  | 0 => false
  | k + 1 => c.getD k false

/-- `c{j} <- v` on a copy of `c` (00_scope.md R10). A position outside the sequence changes nothing. -/
def setBit (c : Bits) (j : Nat) (v : Bit) : Bits :=
  match j with
  | 0 => c
  | k + 1 => c.set k v

/-- `XOR_{j in js} f(j)`; 0 over no position (00_scope.md R9). -/
def xorOver (js : List Nat) (f : Nat → Bit) : Bit :=
  js.foldr (fun j acc => xor (f j) acc) false

/-- `chk(i, c)`: the exclusive-OR of the positions that check `i` covers (R98). -/
def chk (i : Nat) (c : Bits) : Bit :=
  xorOver (cover i c.length) (bitAt c)

/-- The entry `H(i, j) = bit(i, j)` of the parity-check matrix (R98). -/
def matrixEntry (i j : Nat) : Bit :=
  covers i j

/-- The parity-check matrix for codeword length `m`: rows `i = 0 .. rlen(m) - 1`, columns `j = 1 .. m` (R98). -/
def matrix (m : Nat) : List Bits :=
  (List.range (rlen m)).map fun i => (positions m).map (matrixEntry i)

/-- `syn`: `2^i` summed over the checks `i = 0 .. r - 1` that are not zero, `r = rlen(m)` (R99,
42_hamming_decoder.md R121). -/
def syndrome (c : Bits) : Nat :=
  ((List.range (rlen c.length)).map fun i => if chk i c then 2 ^ i else 0).sum

end Sys2Proof.Machine

namespace Sys2Proof

/-- `LW = max(1, rlen(CAP))`, the width of a length field; undefined when CAP is unbounded (00_scope.md R8). -/
def Config.lw (c : Config) : Option Nat :=
  match c.cap with
  | none => none
  | some k => some (max 1 (Machine.rlen k))

/-- The width of the port `din` and of `dout`, `CAP * EW` bits; undefined when CAP is unbounded (10_state.md R25,
R26). -/
def Config.portWidth (c : Config) : Option Nat :=
  match c.cap with
  | none => none
  | some k => some (k * c.ew)

/-- `v` can be carried by `w` bits; any number can where no width is defined (CAP unbounded). -/
def fitsWidth (w : Option Nat) (v : Nat) : Bool :=
  match w with
  | none => true
  | some k => decide (v < 2 ^ k)

end Sys2Proof
end

