-- ==== Sys2Proof/Syntax.lean ====
section
/-! DEFINITION. The instructions (one constructor per row of spec/opcode_table.json), the operation codes, and the
request as the host presents it at the ports (10_state.md R25, 30_encoding.md R60, R61). -/

namespace Sys2Proof

/-- The four values of the `op` field (30_encoding.md R61). -/
inductive Opcode where
  | encode
  | decode
  | extract
  | reserved
  deriving DecidableEq, Repr

/-- One instruction of the block is one request (10_state.md R25): the operation, the operand length `len` and the
value `din` of the data-in port. One constructor per row of the opcode table. -/
inductive Instr where
  /-- ENCODE, `op = 0b00` (41_hamming_encoder.md R110). -/
  | encode (len din : Nat)
  /-- DECODE, `op = 0b01` (42_hamming_decoder.md R120). -/
  | decode (len din : Nat)
  /-- EXTRACT, `op = 0b10` (42_hamming_decoder.md R130). -/
  | extract (len din : Nat)
  /-- The reserved code, `op = 0b11` (30_encoding.md R67). -/
  | reserved (len din : Nat)
  deriving DecidableEq, Repr

/-- The operation of an instruction. -/
def Instr.opcode : Instr → Opcode
  | .encode _ _ => .encode
  | .decode _ _ => .decode
  | .extract _ _ => .extract
  | .reserved _ _ => .reserved

/-- The operand length, in elements. -/
def Instr.len : Instr → Nat
  | .encode len _ => len
  | .decode len _ => len
  | .extract len _ => len
  | .reserved len _ => len

/-- The value of the data-in port. -/
def Instr.din : Instr → Nat
  | .encode _ din => din
  | .decode _ din => din
  | .extract _ din => din
  | .reserved _ din => din

/-- How the fields `op` and `len` are presented: as the packed command word of 30_encoding.md R60, or as fields of
the record of 10_state.md R25 (the only form when CAP is unbounded, R60). -/
inductive Command where
  /-- `cmd = {len, op}`. -/
  | word (cmd : Nat)
  /-- The two fields apart. -/
  | fields (op : BitVec 2) (len : Nat)
  deriving DecidableEq, Repr

/-- A request at the ports (10_state.md R25). -/
structure Request where
  /-- The command: `op` and `len`. -/
  command : Command
  /-- The data-in port as an unsigned number. -/
  din : Nat
  deriving DecidableEq, Repr

end Sys2Proof
end

