-- ==== Sys2Proof/WellFormed.lean ====
section
/-! DEFINITION. Which instructions can be written at the ports of an instance: `len` fits LW bits and `din` fits
CAP * EW bits (10_state.md R25). A `len` above CAP is well formed where the field can hold it: it is refused by the
block, with INVALID_INPUT (30_encoding.md R62). -/

namespace Sys2Proof

/-- `len` fits the length field. -/
def Instr.lenFits (c : Config) (i : Instr) : Bool := fitsWidth c.lw i.len

/-- `din` fits the data-in port. -/
def Instr.dinFits (c : Config) (i : Instr) : Bool := fitsWidth c.portWidth i.din

/-- The instruction can be presented to an instance with these parameters. -/
def Instr.wellFormed (c : Config) (i : Instr) : Bool := i.lenFits c && i.dinFits c

end Sys2Proof
end

