-- ==== Sys2Proof/Decode.lean ====
section
/-! DEFINITION. From a request at the ports to an instruction, and back (30_encoding.md R60 to R63, R70, R74). Total:
every value of the ports gives an instruction, and a value that is no value of the ports is refused by name (log 5). -/

namespace Sys2Proof

/-- Why a presented value is no request of the instance. Raised by `decodeRequest` alone; safe (log 5). -/
inductive DecodeError where
  /-- The command word does not fit `LW + 2` bits (30_encoding.md R60). -/
  | commandTooWide
  /-- The field `len` does not fit `LW` bits (10_state.md R25). -/
  | lengthTooWide
  /-- The value of `din` does not fit `CAP * EW` bits (10_state.md R25). -/
  | dinTooWide
  /-- CAP is unbounded, and then there is no packed command word (30_encoding.md R60). -/
  | noCommandWord
  deriving DecidableEq, Repr

/-- The operation codes (30_encoding.md R61, R67). -/
def Opcode.code : Opcode → BitVec 2
  | .encode => 0b00#2
  | .decode => 0b01#2
  | .extract => 0b10#2
  | .reserved => 0b11#2

/-- The operation a code stands for; every code stands for exactly one row of the table (30_encoding.md R74). -/
def opcodeOf (op : BitVec 2) : Opcode :=
  if op = 0b00#2 then .encode
  else if op = 0b01#2 then .decode
  else if op = 0b10#2 then .extract
  else .reserved

/-- The instruction with these three fields. -/
def instrOf (op : Opcode) (len din : Nat) : Instr :=
  match op with
  | .encode => .encode len din
  | .decode => .decode len din
  | .extract => .extract len din
  | .reserved => .reserved len din

/-- `cmd[1:0]` (30_encoding.md R60). -/
def opField (cmd : Nat) : BitVec 2 := BitVec.ofNat 2 cmd

/-- `cmd[LW+1:2]` of a command word that fits `LW + 2` bits (30_encoding.md R60). -/
def lenField (cmd : Nat) : Nat := cmd / 4

/-- The command word `cmd = len * 4 + op` (30_encoding.md R60). -/
def commandWord (op : BitVec 2) (len : Nat) : Nat := len * 4 + op.toNat

/-- The fields `(op, len)` of a presented command, or why it is none of this instance. -/
def decodeCommand (c : Config) : Command → Except DecodeError (BitVec 2 × Nat)
  | .word cmd =>
    match c.lw with
    | none => .error .noCommandWord
    | some lw => if cmd < 2 ^ (lw + 2) then .ok (opField cmd, lenField cmd) else .error .commandTooWide
  | .fields op len => if fitsWidth c.lw len then .ok (op, len) else .error .lengthTooWide

/-- The decoder: the instruction a request spells, or why it is no request of this instance. -/
def decodeRequest (c : Config) (rq : Request) : Except DecodeError Instr :=
  match decodeCommand c rq.command with
  | .error e => .error e
  | .ok (op, len) =>
    if fitsWidth c.portWidth rq.din then .ok (instrOf (opcodeOf op) len rq.din) else .error .dinTooWide

/-- The command of an instruction: the packed word where the instance has one, else the two fields. -/
def encodeCommand (c : Config) (op : BitVec 2) (len : Nat) : Command :=
  match c.lw with
  | none => .fields op len
  | some _ => .word (commandWord op len)

/-- The encoder: the request that spells an instruction. -/
def encodeRequest (c : Config) (i : Instr) : Request :=
  { command := encodeCommand c i.opcode.code i.len, din := i.din }

/-- The request with the command word `w` of `nbits` bits and an operand port of zeros, as it is presented to an
instance (its fields apart where there is no packed word). -/
def tableRequest (c : Config) (nbits w : Nat) : Request :=
  { command :=
      match c.lw with
      | none => .fields (opField (w % 2 ^ nbits)) (lenField (w % 2 ^ nbits))
      | some _ => .word (w % 2 ^ nbits)
    din := 0 }

/-- The instruction the decoder reads from a command word numbered as spec/opcode_table.json numbers it, with an
operand port of zeros, on the recommended instance (log 8). -/
def decodeTableWord (nbits w : Nat) : Option Instr :=
  match decodeRequest Config.recommended (tableRequest Config.recommended nbits w) with
  | .ok i => some i
  | .error _ => none

end Sys2Proof
end

