-- ==== Sys2Proof/Machine/State.lean ====
section
/-! DEFINITION. The state of a run, the outcomes of an operation and the reasons a step can stop. The block keeps
nothing between operations (10_state.md R20): State holds the static parameters and the two ends of the host's
interface, the requests still to come and the responses produced. -/

namespace Sys2Proof.Machine

/-- The five outcomes of an operation (60_exceptions.md R140). -/
inductive Status where
  /-- NoError, and the success of ENCODE and EXTRACT. -/
  | ok
  /-- CorrectedError. -/
  | corrected
  /-- InvalidInput. -/
  | invalidInput
  /-- UnrecoverableError. -/
  | unrecoverable
  /-- The answer to the reserved operation code. -/
  | illegalOp
  deriving DecidableEq, Repr

/-- What the pseudocode returns: `return (status, errpos, seq)` (00_scope.md R12). -/
structure Result where
  /-- The outcome. -/
  status : Status
  /-- The reported ErrorPosition. -/
  errpos : Nat
  /-- The result sequence. -/
  seq : Bits
  deriving DecidableEq, Repr

/-- A response at the ports (10_state.md R26). -/
structure Response where
  /-- The outcome, 3 bits (its code is `statusCode`). -/
  status : Status
  /-- The position that was inverted back, or 0. -/
  errpos : Nat
  /-- The number of elements of the result sequence. -/
  olen : Nat
  /-- The data-out port as an unsigned number. -/
  dout : Nat
  deriving DecidableEq, Repr

/-- The machine has no fault: every outcome of an operation, good or bad, is a value in its response
(60_exceptions.md R145; 00_scope.md R14 (5)). -/
inductive Fault where
  deriving DecidableEq, Repr

/-- Why a step cannot be taken. -/
inductive Refusal where
  /-- An arm of `exec` without a meaning; no arm raises it in this model. Safe. -/
  | notModelled (mnemonic : String)
  /-- Raised by `step` when the host presents no request: the run is over (00_scope.md R14). Safe (log 4). -/
  | noRequest
  /-- Raised by `step` when what is presented is no value of the instance's ports. Safe (log 5). -/
  | notARequest (e : DecodeError)
  deriving DecidableEq, Repr

/-- The state of a run of one instance. -/
structure State where
  /-- CAP and EW (00_scope.md R6, R7). Static: no operation writes them (10_state.md R24; log 1). -/
  config : Config
  /-- The model's own field (log 3): the requests the host still presents, the next one first. -/
  requests : List Request
  /-- The model's own field (log 3): the responses produced so far, the oldest first. -/
  responses : List Response
  deriving DecidableEq, Repr

/-- Right after reset: nothing has been presented and nothing answered (10_state.md R30, 70_reset_and_hazards.md R170).
The parameters are those of the recommended instance, DESIGN CHOICE (log 2). -/
def State.reset : State :=
  { config := Config.recommended, requests := [], responses := [] }

end Sys2Proof.Machine
end

