-- ==== Sys2Proof/Machine/Operands.lean ====
section
/-! DEFINITION. The operand form and the result form: sequences of elements on the data ports (20_memory.md R42,
30_encoding.md R63, R64, R66). -/

namespace Sys2Proof.Machine

/-- `elem(k) = v[k*EW - 1 : (k-1)*EW]`, the unsigned element at position `k` of a data port (30_encoding.md R63). -/
def elemAt (ew v k : Nat) : Nat :=
  (v >>> ((k - 1) * ew)) % 2 ^ ew

/-- The operand sequence `[elem(1), ..., elem(len)]` (30_encoding.md R63). -/
def operand (ew len din : Nat) : List Nat :=
  (positions len).map (elemAt ew din)

/-- Some element of the operand is neither 0 nor 1 (30_encoding.md R64). -/
def hasNonBinary (ew len din : Nat) : Bool :=
  (operand ew len din).any fun v => decide (2 ≤ v)

/-- The operand of a validated request as bits: an element is 1 or it is 0. -/
def operandBits (ew len din : Nat) : Bits :=
  (operand ew len din).map fun v => v == 1

/-- A bit sequence on the data-out port: each element an EW-bit number 0 or 1 at its place, and 0 beyond the last one
(30_encoding.md R66). -/
def packBits (ew : Nat) : Bits → Nat
  | [] => 0
  | b :: bs => b.toNat + packBits ew bs * 2 ^ ew

end Sys2Proof.Machine
end

