-- ==== Sys2Proof/Machine/Flags.lean ====
section
/-! DEFINITION. The outcomes: their numeric codes (30_encoding.md R65) and the validation every operation begins with
(60_exceptions.md R147). The block has no flag register (10_state.md R23). -/

namespace Sys2Proof.Machine

/-- The 3-bit code of a status (30_encoding.md R65). -/
def statusCode : Status → BitVec 3
  | .ok => 0#3
  | .corrected => 1#3
  | .invalidInput => 2#3
  | .unrecoverable => 3#3
  | .illegalOp => 4#3

/-- The status a 3-bit code stands for; 5, 6 and 7 stand for none (93_implementation_defined.md U6). -/
def statusOf (code : BitVec 3) : Option Status :=
  if code = 0#3 then some .ok
  else if code = 1#3 then some .corrected
  else if code = 2#3 then some .invalidInput
  else if code = 3#3 then some .unrecoverable
  else if code = 4#3 then some .illegalOp
  else none

/-- `validate(op, len, din)`: the outcome that is raised, or none (60_exceptions.md R147, in its order). -/
def validate (c : Config) (op : Opcode) (len din : Nat) : Option Status :=
  if op = .reserved then some .illegalOp
  else if c.fits len = false then some .invalidInput
  else if hasNonBinary c.ew len din then some .invalidInput
  else if op = .encode ∧ c.fits (len + plan len) = false then some .invalidInput
  else none

end Sys2Proof.Machine
end

