-- ==== Sys2Proof/Machine/Ops.lean ====
section
/-! DEFINITION. The named operations over the state: what is presented next, taking it off the port, delivering a
response, raising an outcome, and performing a validated operation (00_scope.md R12, R13). The hardware has no
registers, no memory and no exceptions, so there is no operation over them (10_state.md R20, 60_exceptions.md R145). -/

namespace Sys2Proof.Machine

/-- The request the host presents now, if any. -/
def fetch (s : State) : Option Request := s.requests.head?

/-- The presented request has been taken: the host presents the next one. -/
def advance (s : State) : State := { s with requests := s.requests.tail }

/-- The host presents a request, before those it still holds. -/
def present (rq : Request) (s : State) : State := { s with requests := rq :: s.requests }

/-- The whole response is written at once (20_memory.md R44). -/
def deliver (r : Response) (s : State) : State := { s with responses := s.responses ++ [r] }

/-- The response of a refusal: the status and nothing else (30_encoding.md R66). -/
def refusalResponse (st : Status) : Response := { status := st, errpos := 0, olen := 0, dout := 0 }

/-- `return (status, errpos, seq)` at the ports (00_scope.md R12, 30_encoding.md R66). -/
def responseOf (ew : Nat) (r : Result) : Response :=
  { status := r.status, errpos := r.errpos, olen := r.seq.length, dout := packBits ew r.seq }

/-- `raise <Outcome>`: the operation stops with the response of that outcome and changes nothing else
(00_scope.md R12). -/
def raiseOutcome (st : Status) (s : State) : Host.Outcome State Fault Refusal :=
  .next (deliver (refusalResponse st) s)

/-- The answer to one request: validation first, and `f` of the operand only when it passes (60_exceptions.md R147). -/
def answer (c : Config) (op : Opcode) (f : Bits → Result) (len din : Nat) : Response :=
  match validate c op len din with
  | some st => refusalResponse st
  | none => responseOf c.ew (f (operandBits c.ew len din))

/-- One operation: one atomic step from the request to its response (00_scope.md R13). -/
def perform (op : Opcode) (f : Bits → Result) (len din : Nat) (s : State) : Host.Outcome State Fault Refusal :=
  .next (deliver (answer s.config op f len din) s)

end Sys2Proof.Machine
end

