-- ==== Sys2Proof/Machine/HammingDecoder.lean ====
section
/-! DEFINITION. The sub-block `hamming_decoder`: DECODE and EXTRACT (42_hamming_decoder.md). -/

namespace Sys2Proof.Machine

/-- Inverts the bit at position `j` of a copy of `c` (R122). The host does the same to a codeword it holds
(20_memory.md R50). -/
def flipBit (c : Bits) (j : Nat) : Bits := setBit c j (!bitAt c j)

/-- What DECODE returns on a validated operand: by the syndrome, the operand unchanged, the operand with that one
position inverted, or the operand unchanged and UNRECOVERABLE (R120, R122, R123). -/
def decodeResult (code : Bits) : Result :=
  if syndrome code = 0 then { status := .ok, errpos := 0, seq := code }
  else if syndrome code ≤ code.length then
    { status := .corrected, errpos := syndrome code, seq := flipBit code (syndrome code) }
  else { status := .unrecoverable, errpos := 0, seq := code }

/-- The data positions of a codeword, read in ascending order (R130). -/
def extractBits (code : Bits) : Bits := (dataPositions code.length).map (bitAt code)

/-- What EXTRACT returns on a validated operand (R130). -/
def extractResult (code : Bits) : Result := { status := .ok, errpos := 0, seq := extractBits code }

/-- DECODE (R120). -/
def execDecode (len din : Nat) (s : State) : Host.Outcome State Fault Refusal :=
  perform .decode decodeResult len din s

/-- EXTRACT (R130). -/
def execExtract (len din : Nat) (s : State) : Host.Outcome State Fault Refusal :=
  perform .extract extractResult len din s

end Sys2Proof.Machine
end

