-- ==== Sys2Proof/Machine/HammingEncoder.lean ====
section
/-! DEFINITION. The sub-block `hamming_encoder`: ENCODE (41_hamming_encoder.md). -/

namespace Sys2Proof.Machine

/-- Step 1, placement: a parity position holds 0 for now, every other position the next unused data bit (R111). The walk
never runs out of data bits on the positions of a codeword; it would place 0 there (log 10). -/
def place : List Nat → Bits → Bits
  | [], _ => []
  | j :: js, d =>
    if isPow2 j then false :: place js d
    else
      match d with
      | [] => false :: place js []
      | b :: rest => b :: place js rest

/-- The parity of position `p = 2^i`: the exclusive-OR of the other positions that check `i` covers (R112). -/
def parityBit (c : Bits) (i : Nat) : Bit :=
  xorOver ((cover i c.length).filter fun j => j != 2 ^ i) (bitAt c)

/-- Step 2, parity: position `2^i` gets its parity, for `i = 0 .. r - 1` in turn (R112). -/
def fillParity (r : Nat) (c : Bits) : Bits :=
  (List.range r).foldl (fun c i => setBit c (2 ^ i) (parityBit c i)) c

/-- The codeword of a data block (R110, R113). -/
def encodeBits (d : Bits) : Bits :=
  fillParity (plan d.length) (place (positions (d.length + plan d.length)) d)

/-- What ENCODE returns on a validated operand (R110). -/
def encodeResult (d : Bits) : Result := { status := .ok, errpos := 0, seq := encodeBits d }

/-- ENCODE (R110). -/
def execEncode (len din : Nat) (s : State) : Host.Outcome State Fault Refusal :=
  perform .encode encodeResult len din s

end Sys2Proof.Machine
end

