-- ==== Sys2Proof/Machine/ReservedCode.lean ====
section
/-! DEFINITION. The reserved operation code `0b11` (30_encoding.md R67, 60_exceptions.md R143). -/

namespace Sys2Proof.Machine

/-- The reserved code performs no operation: it is answered ILLEGAL_OP, and `len` and `din` are not examined (R67). It
is a response and no stop of the machine (log 6). -/
def execReserved (_len _din : Nat) (s : State) : Host.Outcome State Fault Refusal :=
  raiseOutcome .illegalOp s

end Sys2Proof.Machine
end

