-- ==== Sys2Proof/Machine/Dispatch.lean ====
section
/-! DEFINITION. One arm per constructor of Instr. -/

namespace Sys2Proof.Machine

def exec (i : Instr) (s : State) : Host.Outcome State Fault Refusal :=
  match i with
  | .encode len din => Sys2Proof.Machine.execEncode len din s
  | .decode len din => Sys2Proof.Machine.execDecode len din s
  | .extract len din => Sys2Proof.Machine.execExtract len din s
  | .reserved len din => Sys2Proof.Machine.execReserved len din s

end Sys2Proof.Machine
end

