-- ==== Sys2Proof/Machine/Step.lean ====
section
/-! DEFINITION. One step: the request the host presents is taken, decoded and performed (00_scope.md R13). -/

namespace Sys2Proof.Machine

/-- One step answers one request. Without one there is no step (log 4), and a value that is no request of the instance
is refused by name (log 5). -/
def step (s : State) : Host.Outcome State Fault Refusal :=
  match fetch s with
  | none => .refused .noRequest
  | some rq =>
    match decodeRequest s.config rq with
    | .error e => .refused (.notARequest e)
    | .ok i => exec i (advance s)

/-- The host presents the command word `w` with an operand port of zeros as its next request (log 8). -/
def State.withFetchWord (s : State) (nbits w : Nat) : State :=
  present (tableRequest s.config nbits w) s

end Sys2Proof.Machine
end

