-- ==== Sys2Proof/Machine/HostSide.lean ====
section
/-! DEFINITION. What a host does with the block, as far as the spec writes it down: issuing one request and reading its
response, and the pseudo-operation RECOVER (30_encoding.md R72, 42_hamming_decoder.md R133). These are sequences of
steps, no operations of the block. -/

namespace Sys2Proof.Machine

/-- The host presents one instruction, the block takes one step, and the host reads the response. None when the step
stops. -/
def issue (i : Instr) (s : State) : Option (State × Response) :=
  match step (present (encodeRequest s.config i) s) with
  | .next t => t.responses.getLast?.map fun r => (t, r)
  | .fault _ => none
  | .refused _ => none

/-- What RECOVER returns when it ends without data: the status of the DECODE, no position, no data (R133). -/
def noData (st : Status) : Response := { status := st, errpos := 0, olen := 0, dout := 0 }

/-- RECOVER (R133): DECODE, and EXTRACT of the DECODE's result sequence only if its status is OK or CORRECTED. The answer
holds the status and `errpos` of the DECODE and the result sequence of the EXTRACT. -/
def recover (len din : Nat) (s : State) : Option (State × Response) :=
  match issue (.decode len din) s with
  | none => none
  | some (t, r) =>
    if r.status = .ok ∨ r.status = .corrected then
      match issue (.extract r.olen r.dout) t with
      | none => none
      | some (u, x) => some (u, { status := r.status, errpos := r.errpos, olen := x.olen, dout := x.dout })
    else some (t, noData r.status)

end Sys2Proof.Machine
end

