-- ==== Sys2Proof/Safety.lean ====
section
/-! DEFINITION. The terms claims are stated in: what a port carries, what an operation answers, and which responses are
in range. -/

namespace Sys2Proof

open Sys2Proof.Machine

/-- The request `(len, din)` carries the bit sequence `d` within the capacity: its operand sequence is `d`
(30_encoding.md R63). The bits of `din` beyond it are free. -/
abbrev Carries (c : Config) (len din : Nat) (d : Bits) : Prop :=
  c.fits len = true ∧ len = d.length ∧ operand c.ew len din = d.map Bool.toNat

/-- The response shows the bit sequence `d` on the data-out port, and 0 beyond it (30_encoding.md R66). -/
abbrev Shows (c : Config) (r : Response) (d : Bits) : Prop :=
  r.olen = d.length ∧ operand c.ew r.olen r.dout = d.map Bool.toNat ∧ r.dout < 2 ^ (r.olen * c.ew)

/-- `MNEMONIC [..] -> STATUS, errpos=E, [d]` (30_encoding.md R71): the operation completes, one response is added to
those produced, and nothing else of the state changes. -/
def Answers (i : Instr) (s : State) (st : Status) (e : Nat) (d : Bits) : Prop :=
  ∃ r : Response, exec i s = .next { s with responses := s.responses ++ [r] } ∧
    r.status = st ∧ r.errpos = e ∧ Shows s.config r d

/-- Some condition under which a request for one of the three operations is refused (60_exceptions.md R141): (a) an
element that is not 0 or 1, (b) `len > CAP`, (c) ENCODE with a codeword longer than CAP. -/
def InvalidInputCause (c : Config) (i : Instr) : Prop :=
  (∃ k, 1 ≤ k ∧ k ≤ i.len ∧ 2 ≤ elemAt c.ew i.din k) ∨
    (∃ cap, c.cap = some cap ∧ cap < i.len) ∨
    (i.opcode = .encode ∧ ∃ cap, c.cap = some cap ∧ cap < i.len + plan i.len)

/-- The request is a value of the ports of the instance: the command word fits `LW + 2` bits (or, as fields, `len` fits
LW bits) and `din` fits `CAP * EW` bits; with CAP unbounded there is no command word (10_state.md R25, 30_encoding.md
R60). -/
def Presentable (c : Config) (rq : Request) : Prop :=
  (match rq.command with
    | .word cmd => ∃ lw, c.lw = some lw ∧ cmd < 2 ^ (lw + 2)
    | .fields _ len => ∀ lw, c.lw = some lw → len < 2 ^ lw) ∧
    ∀ w, c.portWidth = some w → rq.din < 2 ^ w

/-- The ranges of the fields of a response (10_state.md R27). -/
def InRange (c : Config) (r : Response) : Prop :=
  c.fits r.olen = true ∧ r.errpos ≤ r.olen ∧ (r.errpos ≠ 0 ↔ r.status = .corrected) ∧
    (∀ v ∈ operand c.ew r.olen r.dout, v ≤ 1) ∧ r.dout < 2 ^ (r.olen * c.ew) ∧
    (r.status = .invalidInput ∨ r.status = .illegalOp → r.olen = 0 ∧ r.errpos = 0 ∧ r.dout = 0)

/-- Every response produced so far is in range: the invariant of a run. -/
def ResponsesInRange (s : State) : Prop := ∀ r ∈ s.responses, InRange s.config r

/-- How many positions two sequences differ in. -/
def distance (a b : Bits) : Nat := (List.zipWith xor a b).count true

end Sys2Proof
end

