-- ==== Sys2Proof/Certificates/Slice0/Obligations.lean ====
section
/-! DEFINITION. The statements for the provers. The numbered rules are those of spec/; "derived" says that a statement
rests on an inference the spec marks as its own, or on a choice of this model (the log entry is named). -/

open Sys2Proof Sys2Proof.Machine

/-! ### parity_check_matrix (40_parity_check_matrix.md) -/

/-- R90: `plan(n)` satisfies `2^r >= n + r + 1` and no smaller `r` does; the worked example. -/
def Obligations.PlanIsTheLeastParityCount : Prop :=
  (∀ n : Nat, n + plan n + 1 ≤ 2 ^ plan n ∧ ∀ r, n + r + 1 ≤ 2 ^ r → plan n ≤ r) ∧ plan 4 = 3

/-- Section 1 (R91, R92, whose closed form the spec derives): `plan` never decreases, is minimal in the form the document
asks a test to hold, has the closed form, is 0 at 0 and never 1. -/
def Obligations.PlanGrowsAndHasItsClosedForm : Prop :=
  (∀ n n' : Nat, n ≤ n' → plan n ≤ plan n') ∧
  (∀ n : Nat, 0 < plan n → 2 ^ (plan n - 1) < n + plan n) ∧
  (∀ n r : Nat, 2 ≤ r → (plan n = r ↔ 2 ^ (r - 1) - (r - 1) ≤ n ∧ n ≤ 2 ^ r - r - 1)) ∧
  plan 0 = 0 ∧ ∀ n : Nat, plan n ≠ 1

/-- R93: `rlen(m)` is the least `r` with `2^r >= m + 1`, the number of binary digits of `m`, and 0 at 0. -/
def Obligations.RlenIsTheLeastCheckCount : Prop :=
  (∀ m : Nat, m + 1 ≤ 2 ^ rlen m ∧ ∀ r, m + 1 ≤ 2 ^ r → rlen m ≤ r) ∧
  (∀ m : Nat, rlen m = (Nat.digits 2 m).length) ∧ rlen 0 = 0

/-- Section 1 (R94, derived by the spec): the decoder recovers from the codeword length the count the encoder used, and
the last parity position lies inside the codeword and is not its last position. -/
def Obligations.DecoderRecoversTheParityCount : Prop :=
  ∀ n : Nat, rlen (n + plan n) = plan n ∧ (0 < plan n → 2 ^ (plan n - 1) < n + plan n)

/-- Section 2 (R95, whose count the spec derives): the parity positions are the powers of two, and those of `[1, m]` are
`2^0, ..., 2^(rlen(m) - 1)`. -/
def Obligations.ParityPositionsArePowersOfTwo : Prop :=
  (∀ j : Nat, 1 ≤ j → (isPow2 j = true ↔ ∃ i, j = 2 ^ i)) ∧
  ∀ m : Nat, (positions m).filter isPow2 = (List.range (rlen m)).map (fun i => 2 ^ i)

/-- Section 2 (R96, whose counts the spec derives): `dpos` enumerates the positions that are no powers of two in ascending
order, `[1, m]` holds `m - rlen(m)` of them, and exactly `n` when `m = n + plan(n)`. -/
def Obligations.DataPositionsAreEnumerated : Prop :=
  (∀ k : Nat, 1 ≤ k → isPow2 (dpos k) = false ∧ 1 ≤ dpos k ∧ dpos k < dpos (k + 1)) ∧
  (∀ j : Nat, 1 ≤ j → isPow2 j = false → ∃ k, 1 ≤ k ∧ dpos k = j) ∧
  (∀ m : Nat, (dataPositions m).length = m - rlen m ∧
    dataPositions m = (List.range' 1 (m - rlen m)).map dpos) ∧
  ∀ n : Nat, (dataPositions (n + plan n)).length = n

/-- The `k`-th data position is the last position of the codeword of `k` data bits (from R90 and R96; the spec does not
print this closed form). -/
def Obligations.DataPositionClosedForm : Prop :=
  ∀ k : Nat, 1 ≤ k → dpos k = k + plan k

/-- Section 3 (R97, whose second sentence the spec derives): check `i` covers the positions with bit `i` set, among them
its own parity position and no other parity position. -/
def Obligations.ChecksCoverByPositionBit : Prop :=
  (∀ i j : Nat, covers i j = j.testBit i) ∧
  (∀ i m j : Nat, j ∈ cover i m ↔ 1 ≤ j ∧ j ≤ m ∧ j.testBit i = true) ∧
  ∀ i k : Nat, covers i (2 ^ k) = true ↔ k = i

/-- Section 3 (R98): the matrix has `rlen(m)` rows and `m` columns, column `j` is the binary form of `j`, and a check is
the product of its row with the sequence modulo 2. -/
def Obligations.MatrixColumnsAreThePositions : Prop :=
  (∀ m : Nat, (matrix m).length = rlen m ∧ ∀ row ∈ matrix m, row.length = m) ∧
  (∀ m i j : Nat, i < rlen m → 1 ≤ j → j ≤ m → bitAt ((matrix m).getD i []) j = j.testBit i) ∧
  ∀ (c : Bits) (i : Nat), i < rlen c.length →
    chk i c = (List.zipWith and ((matrix c.length).getD i []) c).foldr xor false

/-- Section 3 (R99 (b)) and 42_hamming_decoder.md R125, both derived by the spec: the syndrome is the exclusive-OR, as
numbers, of the positions that hold a 1. -/
def Obligations.SyndromeIsTheXorOfTheOnes : Prop :=
  ∀ c : Bits, syndrome c = ((positions c.length).filter (bitAt c)).foldr (fun j acc => j ^^^ acc) 0

/-- Section 3 (R99 (c), derived by the spec): inverting position `p` changes the syndrome by exclusive-OR with `p`. -/
def Obligations.InversionMovesTheSyndrome : Prop :=
  ∀ (c : Bits) (p : Nat), 1 ≤ p → p ≤ c.length → syndrome (flipBit c p) = syndrome c ^^^ p

/-- 42_hamming_decoder.md R127 (derived by the spec): the syndrome is below `2^r`, below twice the length, and fits the
length field of an instance that can carry the sequence. -/
def Obligations.SyndromeFitsTheLengthField : Prop :=
  (∀ c : Bits, syndrome c < 2 ^ rlen c.length ∧ (c ≠ [] → syndrome c ≤ 2 * c.length - 1)) ∧
  ∀ (cfg : Config) (c : Bits), cfg.fits c.length = true → fitsWidth cfg.lw (syndrome c) = true

/-- Section 4 (R100, derived by the spec): the lengths of codewords are the numbers that are not powers of two, and a
length determines its data length. -/
def Obligations.CodewordLengthsAreNoPowersOfTwo : Prop :=
  (∀ m : Nat, (isCodewordLength m = true ↔ ∃ n, m = n + plan n) ∧
    (isCodewordLength m = true ↔ ¬ ∃ k, m = 2 ^ k)) ∧
  ∀ m n : Nat, m = n + plan n → n = m - rlen m

/-! ### hamming_encoder (41_hamming_encoder.md) -/

/-- R111: after the placement the `k`-th data bit stands at the `k`-th data position and every parity position holds 0. -/
def Obligations.PlacementFollowsTheDataOrder : Prop :=
  ∀ d : Bits,
    (place (positions (d.length + plan d.length)) d).length = d.length + plan d.length ∧
    (∀ k, 1 ≤ k → k ≤ d.length →
      bitAt (place (positions (d.length + plan d.length)) d) (dpos k) = bitAt d k) ∧
    ∀ i, i < plan d.length → bitAt (place (positions (d.length + plan d.length)) d) (2 ^ i) = false

/-- R110, R112, R113: a validated ENCODE answers OK with the codeword: length `n + plan(n)`, the data bits at the data
positions in order, and at each parity position the exclusive-OR of the OTHER positions its check covers. A request with
a cause of refusal answers INVALID_INPUT. -/
def Obligations.EncodeAnswersTheCodeword : Prop :=
  ∀ (s : State) (len din : Nat),
    (InvalidInputCause s.config (.encode len din) → Answers (.encode len din) s .invalidInput 0 []) ∧
    ∀ d : Bits, Carries s.config len din d → s.config.fits (len + plan len) = true →
      ∃ c : Bits, Answers (.encode len din) s .ok 0 c ∧ c.length = d.length + plan d.length ∧
        (∀ k, 1 ≤ k → k ≤ d.length → bitAt c (dpos k) = bitAt d k) ∧
        ∀ i, i < plan d.length → bitAt c (2 ^ i) =
          xorOver ((positions c.length).filter fun j => (j &&& 2 ^ i) != 0 && j != 2 ^ i) (bitAt c)

/-- R114 (derived by the spec): every check of an encoder's codeword is zero, hence its syndrome. -/
def Obligations.EncodedChecksAreZero : Prop :=
  ∀ d : Bits, (∀ i, i < plan d.length → chk i (encodeBits d) = false) ∧ syndrome (encodeBits d) = 0

/-- R116 (derived by the spec): ENCODE is a bijection between the bit sequences of length `n` and the sequences of length
`n + plan(n)` with syndrome 0, of which there are `2^n`. -/
def Obligations.EncoderIsABijectionOntoZeroSyndrome : Prop :=
  (∀ d d' : Bits, d.length = d'.length → encodeBits d = encodeBits d' → d = d') ∧
  (∀ (n : Nat) (c : Bits), c.length = n + plan n → syndrome c = 0 →
    ∃ d : Bits, d.length = n ∧ encodeBits d = c) ∧
  ∀ n : Nat, Nat.card { c : Bits // c.length = n + plan n ∧ syndrome c = 0 } = 2 ^ n

/-- R116, last sentence (supplied by the spec from general knowledge): two different codewords of the same length differ
in at least 3 positions. -/
def Obligations.CodewordsDifferInThreePositions : Prop :=
  ∀ d d' : Bits, d.length = d'.length → d ≠ d' → 3 ≤ distance (encodeBits d) (encodeBits d')

/-- The corner cases of R110: no data gives the empty codeword, one data bit is repeated three times, all-zero data gives
the all-zero codeword. -/
def Obligations.EncodeCornerCases : Prop :=
  encodeBits [] = [] ∧ (∀ b : Bit, encodeBits [b] = [b, b, b]) ∧
  ∀ n : Nat, encodeBits (List.replicate n false) = List.replicate (n + plan n) false

/-! ### hamming_decoder (42_hamming_decoder.md) -/

/-- R121: bit `i` of the syndrome is the full check `i`, the parity position included, for `i` below `rlen(m)`; no other
bit is set. -/
def Obligations.SyndromeAccumulatesTheChecks : Prop :=
  ∀ (c : Bits) (i : Nat), (syndrome c).testBit i =
    (decide (i < rlen c.length) && xorOver ((positions c.length).filter fun j => (j &&& 2 ^ i) != 0) (bitAt c))

/-- R120, R122: DECODE of a validated request has three outcomes by the syndrome, and a request with a cause of refusal
answers INVALID_INPUT. -/
def Obligations.DecodeAnswersByTheSyndrome : Prop :=
  ∀ (s : State) (len din : Nat),
    (InvalidInputCause s.config (.decode len din) → Answers (.decode len din) s .invalidInput 0 []) ∧
    ∀ code : Bits, Carries s.config len din code →
      (syndrome code = 0 → Answers (.decode len din) s .ok 0 code) ∧
      (1 ≤ syndrome code → syndrome code ≤ code.length →
        ∃ c : Bits, Answers (.decode len din) s .corrected (syndrome code) c ∧ c.length = code.length ∧
          ∀ j, 1 ≤ j → j ≤ code.length →
            bitAt c j = if j = syndrome code then !bitAt code j else bitAt code j) ∧
      (code.length < syndrome code → Answers (.decode len din) s .unrecoverable 0 code)

/-- R124: an encoder's codeword decodes to OK with the codeword unchanged, and with any one position `p` inverted to
CORRECTED with `errpos = p` and the codeword restored. The codeword is the one ENCODE answered at the port; the bits of
`din` beyond a sequence are free, and the decoding block may be in any state of the same instance. -/
def Obligations.SingleInversionIsCorrected : Prop :=
  ∀ (s : State) (len din : Nat) (d : Bits), Carries s.config len din d → s.config.fits (len + plan len) = true →
    ∃ code : Bits, Answers (.encode len din) s .ok 0 code ∧ code.length = d.length + plan d.length ∧
      ∀ (t : State) (din' : Nat), t.config = s.config →
        (Carries s.config code.length din' code → Answers (.decode code.length din') t .ok 0 code) ∧
        ∀ p, 1 ≤ p → p ≤ code.length → Carries s.config code.length din' (flipBit code p) →
          Answers (.decode code.length din') t .corrected p code

/-- R115, R131: what ENCODE answers, DECODE answers with OK unchanged and EXTRACT answers with the data. -/
def Obligations.EncodedDataRoundTrips : Prop :=
  ∀ (s : State) (len din : Nat) (d : Bits), Carries s.config len din d → s.config.fits (len + plan len) = true →
    ∃ code : Bits, Answers (.encode len din) s .ok 0 code ∧
      ∀ (t : State) (din' : Nat), t.config = s.config → Carries s.config code.length din' code →
        Answers (.decode code.length din') t .ok 0 code ∧ Answers (.extract code.length din') t .ok 0 d

/-- R126 (derived by the spec): with two different positions of a codeword inverted, DECODE answers UNRECOVERABLE when
`a XOR b` lies outside the codeword, and else CORRECTED at that third position, with a sequence of syndrome 0 that
differs from the codeword in three positions. -/
def Obligations.DoubleInversionIsMiscorrectedOrReported : Prop :=
  ∀ (s : State) (d : Bits) (a b din : Nat),
    1 ≤ a → a ≤ (encodeBits d).length → 1 ≤ b → b ≤ (encodeBits d).length → a ≠ b →
    Carries s.config (encodeBits d).length din (flipBit (flipBit (encodeBits d) a) b) →
    ((encodeBits d).length < a ^^^ b →
      Answers (.decode (encodeBits d).length din) s .unrecoverable 0 (flipBit (flipBit (encodeBits d) a) b)) ∧
    (a ^^^ b ≤ (encodeBits d).length → a ^^^ b ≠ a ∧ a ^^^ b ≠ b ∧
      ∃ c : Bits, Answers (.decode (encodeBits d).length din) s .corrected (a ^^^ b) c ∧
        c.length = (encodeBits d).length ∧ syndrome c = 0 ∧ distance c (encodeBits d) = 3)

/-- R125 (derived by the spec): after a CORRECTED outcome the result has syndrome 0, and a DECODE of any DECODE's result
answers OK with the same sequence, or UNRECOVERABLE again with the same sequence. -/
def Obligations.DecodingTwiceIsDecodingOnce : Prop :=
  ∀ (s : State) (len din : Nat) (code : Bits), Carries s.config len din code →
    ∃ (st : Status) (e : Nat) (c : Bits), Answers (.decode len din) s st e c ∧
      (st = .corrected → syndrome c = 0) ∧
      ∀ (t : State) (din' : Nat), t.config = s.config → Carries s.config len din' c →
        Answers (.decode len din') t (if st = .unrecoverable then .unrecoverable else .ok) 0 c

/-- R123, last sentence (derived by the spec): UNRECOVERABLE needs `m + 1` to be no power of two. -/
def Obligations.FullLengthsAreNeverUnrecoverable : Prop :=
  ∀ (s : State) (k din : Nat) (code : Bits), code.length = 2 ^ k - 1 → Carries s.config code.length din code →
    ∃ (st : Status) (e : Nat) (c : Bits), Answers (.decode code.length din) s st e c ∧ (st = .ok ∨ st = .corrected)

/-- R128: DECODE and EXTRACT serve a length that no ENCODE produces by the same rules: `r = k + 1`, the last position is
covered by check `k` alone, and syndrome 0 requires it to be 0; the spec's four examples. -/
def Obligations.PowerOfTwoLengthsAreServed : Prop :=
  (∀ k : Nat, rlen (2 ^ k) = k + 1 ∧ cover k (2 ^ k) = [2 ^ k]) ∧
  (∀ (k : Nat) (code : Bits), code.length = 2 ^ k → syndrome code = 0 → bitAt code (2 ^ k) = false) ∧
  (∀ (s : State) (k din : Nat) (code : Bits), code.length = 2 ^ k → Carries s.config (2 ^ k) din code →
    ∃ (st : Status) (e : Nat) (c x : Bits), Answers (.decode (2 ^ k) din) s st e c ∧
      (st = .ok ∨ st = .corrected ∨ st = .unrecoverable) ∧
      Answers (.extract (2 ^ k) din) s .ok 0 x ∧ x.length = 2 ^ k - (k + 1)) ∧
  decodeResult [true] = ⟨.corrected, 1, [false]⟩ ∧ decodeResult [true, true] = ⟨.unrecoverable, 0, [true, true]⟩ ∧
  decodeResult [false, false, false, true] = ⟨.corrected, 4, [false, false, false, false]⟩ ∧
  extractResult [true, true, true, false] = ⟨.ok, 0, [true]⟩

/-- R130: a validated EXTRACT answers OK with the `m - rlen(m)` data bits, the `k`-th read at the `k`-th data position;
a request with a cause of refusal answers INVALID_INPUT. -/
def Obligations.ExtractAnswersTheDataBits : Prop :=
  ∀ (s : State) (len din : Nat),
    (InvalidInputCause s.config (.extract len din) → Answers (.extract len din) s .invalidInput 0 []) ∧
    ∀ code : Bits, Carries s.config len din code →
      ∃ d : Bits, Answers (.extract len din) s .ok 0 d ∧ d.length = code.length - rlen code.length ∧
        ∀ k, 1 ≤ k → k ≤ d.length → bitAt d k = bitAt code (dpos k)

/-- R132 (derived by the spec): EXTRACT looks at no parity position and corrects nothing: an inverted parity position does
not change the data, an inverted data position inverts the data bit. -/
def Obligations.ExtractChecksNothing : Prop :=
  (∀ (code : Bits) (i : Nat), extractBits (flipBit code (2 ^ i)) = extractBits code) ∧
  ∀ (code : Bits) (k : Nat), 1 ≤ k → extractBits (flipBit code (dpos k)) = flipBit (extractBits code) k

/-- R133: RECOVER of a codeword answers OK with the data, and of a codeword with position `p` inverted CORRECTED at `p`
with the data; it issues two requests and changes nothing else. -/
def Obligations.RecoverDeliversTheData : Prop :=
  ∀ (s : State) (d : Bits) (din : Nat), fitsWidth s.config.portWidth din = true →
    (Carries s.config (encodeBits d).length din (encodeBits d) →
      ∃ r1 r2 r : Response,
        recover (encodeBits d).length din s = some ({ s with responses := s.responses ++ [r1, r2] }, r) ∧
        r.status = .ok ∧ r.errpos = 0 ∧ Shows s.config r d) ∧
    ∀ p, 1 ≤ p → p ≤ (encodeBits d).length →
      Carries s.config (encodeBits d).length din (flipBit (encodeBits d) p) →
      ∃ r1 r2 r : Response,
        recover (encodeBits d).length din s = some ({ s with responses := s.responses ++ [r1, r2] }, r) ∧
        r.status = .corrected ∧ r.errpos = p ∧ Shows s.config r d

/-- R133, for every operand that is carried, whatever its history (also two or more inversions away from a codeword): when
the DECODE answers OK or CORRECTED, RECOVER returns its status and `errpos` and the data positions of its result sequence,
right or wrong; when it answers UNRECOVERABLE, that status and no data. -/
def Obligations.RecoverFollowsTheSyndrome : Prop :=
  ∀ (s : State) (len din : Nat) (code : Bits), fitsWidth s.config.portWidth din = true →
    Carries s.config len din code →
    (syndrome code = 0 →
      ∃ r1 r2 r : Response, recover len din s = some ({ s with responses := s.responses ++ [r1, r2] }, r) ∧
        r.status = .ok ∧ r.errpos = 0 ∧ Shows s.config r ((dataPositions len).map (bitAt code))) ∧
    (1 ≤ syndrome code → syndrome code ≤ len →
      ∃ r1 r2 r : Response, recover len din s = some ({ s with responses := s.responses ++ [r1, r2] }, r) ∧
        r.status = .corrected ∧ r.errpos = syndrome code ∧
        Shows s.config r ((dataPositions len).map fun j =>
          if j = syndrome code then !bitAt code j else bitAt code j)) ∧
    (len < syndrome code →
      ∃ r1 : Response, recover len din s =
        some ({ s with responses := s.responses ++ [r1] }, ⟨.unrecoverable, 0, 0, 0⟩))

/-- R133: when the DECODE answers UNRECOVERABLE or INVALID_INPUT, RECOVER ends there with that status and no data: one
request is issued and no EXTRACT. -/
def Obligations.RecoverWithholdsDataOnFailure : Prop :=
  ∀ (s : State) (len din : Nat) (r : Response), (Instr.decode len din).wellFormed s.config = true →
    exec (.decode len din) s = .next { s with responses := s.responses ++ [r] } →
    r.status = .unrecoverable ∨ r.status = .invalidInput →
    recover len din s = some ({ s with responses := s.responses ++ [r] }, ⟨r.status, 0, 0, 0⟩)

/-! ### outcomes (60_exceptions.md, 30_encoding.md, 10_state.md) -/

/-- R67, R143: the reserved code answers ILLEGAL_OP with empty fields, whatever `len` and `din` hold. -/
def Obligations.ReservedCodeAnswersIllegalOp : Prop :=
  ∀ (s : State) (len din : Nat), Answers (.reserved len din) s .illegalOp 0 []

/-- R141, R147: one of the three operations answers INVALID_INPUT with empty fields exactly when a cause holds, whatever
else is true of the request; the reserved code answers ILLEGAL_OP even then; a non-binary element needs `EW >= 2`, and
the causes (b) and (c) a bounded CAP. -/
def Obligations.ValidationDecidesRefusals : Prop :=
  ∀ (s : State) (i : Instr),
    (i.opcode = .reserved → Answers i s .illegalOp 0 []) ∧
    (i.opcode ≠ .reserved → InvalidInputCause s.config i → Answers i s .invalidInput 0 []) ∧
    (i.opcode ≠ .reserved → ¬ InvalidInputCause s.config i →
      ∃ (st : Status) (e : Nat) (d : Bits), Answers i s st e d ∧ st ≠ .invalidInput ∧ st ≠ .illegalOp) ∧
    (s.config.ew = 1 → ∀ k, elemAt s.config.ew i.din k < 2) ∧
    (s.config.cap = none → InvalidInputCause s.config i →
      ∃ k, 1 ≤ k ∧ k ≤ i.len ∧ 2 ≤ elemAt s.config.ew i.din k)

/-- R65: the status codes, and which operation produces which status; codes 5 to 7 stand for none. -/
def Obligations.StatusCodesAndTheirProducers : Prop :=
  (statusCode .ok = 0#3 ∧ statusCode .corrected = 1#3 ∧ statusCode .invalidInput = 2#3 ∧
    statusCode .unrecoverable = 3#3 ∧ statusCode .illegalOp = 4#3) ∧
  (∀ (code : BitVec 3) (st : Status), statusOf code = some st ↔ statusCode st = code) ∧
  ∀ (s : State) (i : Instr), ∃ r : Response, exec i s = .next { s with responses := s.responses ++ [r] } ∧
    (r.status = .corrected ∨ r.status = .unrecoverable → i.opcode = .decode) ∧
    (r.status = .ok ∨ r.status = .invalidInput → i.opcode ≠ .reserved) ∧
    (r.status = .illegalOp ↔ i.opcode = .reserved)

/-- R63: an element is the `EW` bits of `din` at its place, and the bits from `len * EW` upwards cannot change the
response of any operation. -/
def Obligations.BitsBeyondTheOperandAreIgnored : Prop :=
  (∀ (ew len din : Nat), (operand ew len din).length = len ∧
    ∀ k b : Nat, 1 ≤ k → k ≤ len → ((operand ew len din).getD (k - 1) 0).testBit b =
      (decide (b < ew) && din.testBit ((k - 1) * ew + b))) ∧
  ∀ (s : State) (op : Opcode) (len din din' : Nat),
    din % 2 ^ (len * s.config.ew) = din' % 2 ^ (len * s.config.ew) →
    exec (instrOf op len din) s = exec (instrOf op len din') s

/-- 20_memory.md R42: position `k` of a result stands in the bits `[k*EW-1 : (k-1)*EW]` of `dout`, its lowest bit the bit
itself, and every other bit of `dout` is 0. -/
def Obligations.ResultElementsStandInOrder : Prop :=
  ∀ (ew : Nat) (d : Bits) (k b : Nat), 1 ≤ ew → b < ew → 1 ≤ k →
    (packBits ew d).testBit ((k - 1) * ew + b) = (decide (b = 0) && bitAt d k)

/-- 10_state.md R27 (derived by the spec): a step keeps every response in range, from every state in which all are. -/
def Obligations.StepKeepsResponsesInRange : Prop :=
  ∀ s t : State, ResponsesInRange s → step s = .next t → ResponsesInRange t

/-- The base case of `StepKeepsResponsesInRange`: the responses after reset are in range. This rests on the model's own
choice of an empty list of responses at reset (log 3, DESIGN CHOICE), on the recommended instance (log 2, DESIGN CHOICE);
no rule of the spec states it. -/
def Obligations.ResetResponsesAreInRange : Prop := ResponsesInRange State.reset

/-- 00_scope.md R8 (its last sentence) and 40_parity_check_matrix.md R102: every value that reaches a port fits it. -/
def Obligations.ResponsesFitTheirPorts : Prop :=
  ∀ (s : State) (i : Instr), ∃ r : Response, exec i s = .next { s with responses := s.responses ++ [r] } ∧
    fitsWidth s.config.lw r.errpos = true ∧ fitsWidth s.config.lw r.olen = true ∧
    fitsWidth s.config.portWidth r.dout = true

/-! ### encodings (30_encoding.md) -/

/-- Words written out from R60 and R61 on the recommended instance (the model's choice, log 2), where `cmd[6:2]` is `len`
and `cmd[1:0]` is `op`. The last clause is the model's choice, no rule of the spec: a value that is no command word of 7
bits is refused by name (log 5, DEDUCED). -/
def Obligations.CommandWordsOfTheSpecDecode : Prop :=
  decodeRequest Config.recommended ⟨.word 0b0010000, 0b1101⟩ = .ok (.encode 4 0xD) ∧
  decodeRequest Config.recommended ⟨.word 0b0011101, 0b1110110⟩ = .ok (.decode 7 0x76) ∧
  decodeRequest Config.recommended ⟨.word 0b0011110, 0b1100110⟩ = .ok (.extract 7 0x66) ∧
  decodeRequest Config.recommended ⟨.word 0b1111111, 0x1FFFFF⟩ = .ok (.reserved 31 0x1FFFFF) ∧
  decodeRequest Config.recommended ⟨.word 0b10000000, 0⟩ = .error .commandTooWide

/-- R60: decoding the request that spells a well-formed instruction gives it back, for every instance. -/
def Obligations.DecodeOfEncodedInstruction : Prop :=
  ∀ (c : Config) (i : Instr), i.wellFormed c = true → decodeRequest c (encodeRequest c i) = .ok i

/-- The other direction: what the decoder accepts is well formed, carries the presented fields, and a packed command word
is spelled back bit for bit. That an instance with a packed word also takes a command as its two fields is the model's choice
(log 7). -/
def Obligations.EncodeOfDecodedRequest : Prop :=
  (∀ (c : Config) (cmd din : Nat) (i : Instr), decodeRequest c ⟨.word cmd, din⟩ = .ok i →
    i.wellFormed c = true ∧ encodeRequest c i = ⟨.word cmd, din⟩) ∧
  ∀ (c : Config) (op : BitVec 2) (len din : Nat) (i : Instr), decodeRequest c ⟨.fields op len, din⟩ = .ok i →
    i.wellFormed c = true ∧ i.opcode.code = op ∧ i.len = len ∧ i.din = din

/-- R74: the decoder is total on command words, reads `op` and `len` where R60 puts them, and every word matches exactly
one row of the table under the mask `0x3`. -/
def Obligations.EveryCommandWordMatchesOneRow : Prop :=
  (∀ (c : Config) (lw cmd din : Nat), c.lw = some lw → cmd < 2 ^ (lw + 2) → fitsWidth c.portWidth din = true →
    ∃ i : Instr, decodeRequest c ⟨.word cmd, din⟩ = .ok i ∧
      i.opcode.code.toNat = cmd &&& 0x3 ∧ i.len = cmd >>> 2 ∧ i.din = din) ∧
  ∀ cmd : Nat, ∃! op : Opcode, cmd &&& 0x3 = op.code.toNat

/-! ### steps and runs (00_scope.md, 10_state.md, 20_memory.md, 70_reset_and_hazards.md) -/

/-- A step runs the decoded instruction: when the presented request decodes to `i`, the step is `exec` of `i` with that
request taken off the port. -/
def Obligations.StepRunsTheDecodedInstruction : Prop :=
  ∀ (s : State) (rq : Request) (rest : List Request) (i : Instr), s.requests = rq :: rest →
    decodeRequest s.config rq = .ok i → step s = exec i { s with requests := rest }

/-- When a step stops (the model's choice, log 4 and log 5): only without a request, or when what is presented is no value
of the ports. Every request of the instance gets its step. -/
def Obligations.StepStopsOnlyWithoutARequest : Prop :=
  ∀ s : State,
    (s.requests = [] → step s = .refused .noRequest) ∧
    ∀ (rq : Request) (rest : List Request), s.requests = rq :: rest →
      (Presentable s.config rq → ∃ t, step s = .next t) ∧
      (¬ Presentable s.config rq → ∃ e, step s = .refused (.notARequest e))

/-- Every instruction completes in every state: one response is added, and the parameters, the requests still to come and
the earlier responses are unchanged (20_memory.md R44, 60_exceptions.md R148). -/
def Obligations.EveryOperationAddsOneResponse : Prop :=
  ∀ (s : State) (i : Instr), ∃ r : Response, exec i s = .next { s with responses := s.responses ++ [r] }

/-- 10_state.md R24, R31: however many steps are taken, CAP and EW stay, and each step takes one request and adds one
response. -/
def Obligations.RunsKeepTheParameters : Prop :=
  ∀ (k : Nat) (s t : State), Host.Core.run core k s = .next t →
    t.config = s.config ∧ t.requests = s.requests.drop k ∧ k ≤ s.requests.length ∧
      ∃ rs : List Response, rs.length = k ∧ t.responses = s.responses ++ rs

/-- R178, R20: there is one function from the parameters and a request to a response such that every run over
presentable requests ends with exactly the responses it gives, in order, whatever the responses before. -/
def Obligations.RunsAnswerEveryRequestByItself : Prop :=
  ∃ f : Config → Request → Response, ∀ s : State, (∀ rq ∈ s.requests, Presentable s.config rq) →
    Host.Core.run core s.requests.length s =
      .next { s with requests := [], responses := s.responses ++ s.requests.map (f s.config) }

/-- 20_memory.md R46: two operations commute: in either order each gets the response it gets alone. -/
def Obligations.OperationsCommute : Prop :=
  ∀ (s : State) (a b : Request), Presentable s.config a → Presentable s.config b →
    ∃ ra rb : Response,
      step { s with requests := [a] } = .next { s with requests := [], responses := s.responses ++ [ra] } ∧
      step { s with requests := [b] } = .next { s with requests := [], responses := s.responses ++ [rb] } ∧
      Host.Core.run core 2 { s with requests := [a, b] } =
        .next { s with requests := [], responses := s.responses ++ [ra, rb] } ∧
      Host.Core.run core 2 { s with requests := [b, a] } =
        .next { s with requests := [], responses := s.responses ++ [rb, ra] }

/-- R170: a block that has just been reset answers a request exactly as a block that has served any number of requests. -/
def Obligations.ResetBlockAnswersAsAnyOther : Prop :=
  ∀ (s : State) (rq : Request), Presentable s.config rq →
    ∃ r : Response,
      step { config := s.config, requests := [rq], responses := [] } =
        .next { config := s.config, requests := [], responses := [r] } ∧
      step (present rq s) = .next { s with responses := s.responses ++ [r] }

/-- What `State.reset` is: the recommended instance (the model's choice, log 2), nothing presented and nothing answered
(log 3). -/
def Obligations.ResetHoldsNothing : Prop :=
  State.reset = { config := { cap := some 21, ew := 1 }, requests := [], responses := [] }
end

