-- ==== Sys2Proof/Laws/Decode.lean ====
section
/-! SUPPORT. The small laws of the encoding: an instruction is its three fields, and a code is its operation. -/

namespace Sys2Proof

@[simp] theorem opcode_instrOf (op : Opcode) (len din : Nat) : (instrOf op len din).opcode = op := by cases op <;> rfl
@[simp] theorem len_instrOf (op : Opcode) (len din : Nat) : (instrOf op len din).len = len := by cases op <;> rfl
@[simp] theorem din_instrOf (op : Opcode) (len din : Nat) : (instrOf op len din).din = din := by cases op <;> rfl
@[simp] theorem instrOf_fields (i : Instr) : instrOf i.opcode i.len i.din = i := by cases i <;> rfl

@[simp] theorem opcodeOf_code (op : Opcode) : opcodeOf op.code = op := by cases op <;> rfl
@[simp] theorem code_opcodeOf (op : BitVec 2) : (opcodeOf op).code = op := by
  revert op
  decide

/-- The length field of a command word is the length it was made of. -/
theorem lenField_commandWord (op : BitVec 2) (len : Nat) : lenField (commandWord op len) = len := by
  have := op.isLt
  simp only [lenField, commandWord]
  omega

/-- The operation field of a command word is the code it was made of. -/
theorem opField_commandWord (op : BitVec 2) (len : Nat) : opField (commandWord op len) = op := by
  apply BitVec.eq_of_toNat_eq
  have := op.isLt
  simp only [opField, commandWord, BitVec.toNat_ofNat]
  omega

/-- A command word is made of its two fields. -/
theorem commandWord_fields (cmd : Nat) : commandWord (opField cmd) (lenField cmd) = cmd := by
  simp only [commandWord, opField, lenField, BitVec.toNat_ofNat]
  omega

end Sys2Proof
end

