-- ==== Sys2Proof/Laws/Parity.lean ====
section
/-! SUPPORT. The small laws of positions, coverage, exclusive-OR over positions and the counting loop. -/

namespace Sys2Proof.Machine

/-- What the counting loop finds, when some value within its fuel satisfies the condition: a value that satisfies it, and
none between the start and it does. -/
theorem leastFrom_spec (p : Nat → Bool) (fuel r : Nat) (h : ∃ q, r ≤ q ∧ q ≤ r + fuel ∧ p q = true) :
    p (leastFrom p fuel r) = true ∧ ∀ q, r ≤ q → p q = true → leastFrom p fuel r ≤ q := by
  induction fuel generalizing r with
  | zero =>
    obtain ⟨q, h1, h2, h3⟩ := h
    have hq : q = r := by omega
    subst hq
    exact ⟨h3, fun q' hq' _ => hq'⟩
  | succ fuel ih =>
    by_cases hr : p r = true
    · simp only [leastFrom, hr, if_true]
      exact ⟨trivial, fun q hq _ => hq⟩
    · have hstep : leastFrom p (fuel + 1) r = leastFrom p fuel (r + 1) := by simp [leastFrom, hr]
      obtain ⟨q, h1, h2, h3⟩ := h
      have hne : q ≠ r := by rintro rfl; exact hr h3
      obtain ⟨hp, hmin⟩ := ih (r + 1) ⟨q, by omega, by omega, h3⟩
      rw [hstep]
      refine ⟨hp, fun q' hq' hp' => hmin q' ?_ hp'⟩
      have : q' ≠ r := by rintro rfl; exact hr hp'
      omega

@[simp] theorem length_positions (m : Nat) : (positions m).length = m := by simp [positions]

@[simp] theorem mem_positions {m j : Nat} : j ∈ positions m ↔ 1 ≤ j ∧ j ≤ m := by
  simp only [positions, List.mem_range'_1]
  omega

theorem mem_dataPositions {m j : Nat} : j ∈ dataPositions m ↔ (1 ≤ j ∧ j ≤ m) ∧ isPow2 j = false := by
  simp [dataPositions]

theorem positions_succ (m : Nat) : positions (m + 1) = positions m ++ [m + 1] := by
  simp [positions, List.range'_1_concat, Nat.add_comm 1 m]

@[simp] theorem xorOver_nil (f : Nat → Bit) : xorOver [] f = false := rfl

@[simp] theorem xorOver_cons (j : Nat) (js : List Nat) (f : Nat → Bit) :
    xorOver (j :: js) f = xor (f j) (xorOver js f) := rfl

theorem xorOver_append (js ks : List Nat) (f : Nat → Bit) :
    xorOver (js ++ ks) f = xor (xorOver js f) (xorOver ks f) := by
  induction js with
  | nil => simp
  | cons j js ih => simp [ih]

/-- Only the values at the listed positions matter. -/
theorem xorOver_congr {js : List Nat} {f g : Nat → Bit} (h : ∀ j ∈ js, f j = g j) : xorOver js f = xorOver js g := by
  induction js with
  | nil => rfl
  | cons j js ih =>
    simp only [xorOver_cons]
    rw [h j (by simp), ih fun k hk => h k (by simp [hk])]

@[simp] theorem bitAt_succ (c : Bits) (k : Nat) : bitAt c (k + 1) = c.getD k false := rfl

@[simp] theorem length_setBit (c : Bits) (j : Nat) (v : Bit) : (setBit c j v).length = c.length := by
  cases j <;> simp [setBit]

/-- A position reads the value written to it, inside the sequence. -/
theorem bitAt_setBit_self {c : Bits} {j : Nat} (v : Bit) (h1 : 1 ≤ j) (h2 : j ≤ c.length) :
    bitAt (setBit c j v) j = v := by
  obtain ⟨k, rfl⟩ : ∃ k, j = k + 1 := ⟨j - 1, by omega⟩
  simp [setBit, List.getD_eq_getElem?_getD, show k < c.length by omega]

/-- Every other position reads as before. -/
theorem bitAt_setBit_other (c : Bits) {j k : Nat} (v : Bit) (h : k ≠ j) : bitAt (setBit c j v) k = bitAt c k := by
  cases j with
  | zero => rfl
  | succ j =>
    cases k with
    | zero => rfl
    | succ k => simp [setBit, List.getD_eq_getElem?_getD, show ¬ j = k by omega]

/-- Two sequences of one length that agree at every position are equal. -/
theorem bits_ext {a b : Bits} (hl : a.length = b.length)
    (h : ∀ j, 1 ≤ j → j ≤ a.length → bitAt a j = bitAt b j) : a = b := by
  apply List.ext_getElem hl
  intro k hka hkb
  have := h (k + 1) (by omega) (by omega)
  simpa [List.getD_eq_getElem?_getD, hka, hkb] using this

end Sys2Proof.Machine
end

