-- ==== Sys2Proof/Laws/Ports.lean ====
section
/-! SUPPORT. What the two data ports carry: packing a bit sequence and reading it back. -/

namespace Sys2Proof.Machine

@[simp] theorem length_operand (ew len din : Nat) : (operand ew len din).length = len := by simp [operand]

@[simp] theorem length_operandBits (ew len din : Nat) : (operandBits ew len din).length = len := by
  simp [operandBits]

/-- An operand that is a bit sequence is read as that bit sequence. -/
theorem operandBits_eq {ew len din : Nat} {d : Bits} (h : operand ew len din = d.map Bool.toNat) :
    operandBits ew len din = d := by
  rw [operandBits, h, List.map_map]
  refine (List.map_congr_left fun b _ => ?_).trans (List.map_id d)
  cases b <;> rfl

/-- A bit sequence passes the element check. -/
theorem hasNonBinary_eq_false {ew len din : Nat} {d : Bits} (h : operand ew len din = d.map Bool.toNat) :
    hasNonBinary ew len din = false := by
  rw [hasNonBinary, h, List.any_eq_false]
  intro v hv
  obtain ⟨b, -, rfl⟩ := List.mem_map.mp hv
  cases b <;> decide

/-- A packed sequence fits its own width. -/
theorem packBits_lt {ew : Nat} (hew : 1 ≤ ew) (d : Bits) : packBits ew d < 2 ^ (d.length * ew) := by
  induction d with
  | nil => simp [packBits]
  | cons b d ih =>
    have hb : b.toNat < 2 ^ ew :=
      lt_of_le_of_lt (Bool.toNat_le b) (Nat.one_lt_two_pow (by omega))
    have : (b :: d).length * ew = d.length * ew + ew := by simp [Nat.add_mul]
    rw [this, pow_add]
    simp only [packBits]
    calc b.toNat + packBits ew d * 2 ^ ew < (packBits ew d + 1) * 2 ^ ew := by rw [Nat.add_mul]; omega
      _ ≤ 2 ^ (d.length * ew) * 2 ^ ew := Nat.mul_le_mul_right _ ih

/-- The first element of a packed sequence, and the sequence above it. -/
theorem elemAt_packBits_cons {ew : Nat} (hew : 1 ≤ ew) (b : Bit) (d : Bits) :
    elemAt ew (packBits ew (b :: d)) 1 = b.toNat ∧
      ∀ k, 1 ≤ k → elemAt ew (packBits ew (b :: d)) (k + 1) = elemAt ew (packBits ew d) k := by
  have hb : b.toNat < 2 ^ ew := lt_of_le_of_lt (Bool.toNat_le b) (Nat.one_lt_two_pow (by omega))
  refine ⟨?_, fun k hk => ?_⟩
  · simp [elemAt, packBits, Nat.mod_eq_of_lt hb]
  · obtain ⟨k, rfl⟩ : ∃ n, k = n + 1 := ⟨k - 1, by omega⟩
    have hdiv : (b.toNat + packBits ew d * 2 ^ ew) / 2 ^ ew = packBits ew d := by
      rw [Nat.add_mul_div_right _ _ (by positivity), Nat.div_eq_of_lt hb, Nat.zero_add]
    simp only [elemAt, packBits, Nat.add_sub_cancel, Nat.shiftRight_eq_div_pow]
    rw [Nat.add_mul, Nat.one_mul, pow_add, Nat.mul_comm (2 ^ (k * ew)), ← Nat.div_div_eq_div_mul, hdiv]

/-- What is packed is read back. -/
theorem operand_packBits {ew : Nat} (hew : 1 ≤ ew) (d : Bits) :
    operand ew d.length (packBits ew d) = d.map Bool.toNat := by
  induction d with
  | nil => rfl
  | cons b d ih =>
    obtain ⟨h1, hs⟩ := elemAt_packBits_cons hew b d
    have hp : positions (d.length + 1) = 1 :: (positions d.length).map (· + 1) := by
      simp only [positions, List.range'_succ]
      rw [show (fun x => x + 1) = (1 + ·) from funext fun x => Nat.add_comm x 1, List.map_add_range']
    simp only [operand, List.length_cons, hp, List.map_cons, List.map_map, h1] at ih ⊢
    rw [← ih]
    congr 1
    exact List.map_congr_left fun k hk => hs k (mem_positions.mp hk).1

end Sys2Proof.Machine
end

