-- ==== Sys2Proof/Laws/State.lean ====
section
/-! SUPPORT. One lemma per field per update of the state, so that no proof unfolds a record update. -/

namespace Sys2Proof.Machine

@[simp] theorem advance_config (s : State) : (advance s).config = s.config := rfl
@[simp] theorem advance_requests (s : State) : (advance s).requests = s.requests.tail := rfl
@[simp] theorem advance_responses (s : State) : (advance s).responses = s.responses := rfl

@[simp] theorem present_config (rq : Request) (s : State) : (present rq s).config = s.config := rfl
@[simp] theorem present_requests (rq : Request) (s : State) : (present rq s).requests = rq :: s.requests := rfl
@[simp] theorem present_responses (rq : Request) (s : State) : (present rq s).responses = s.responses := rfl

@[simp] theorem deliver_config (r : Response) (s : State) : (deliver r s).config = s.config := rfl
@[simp] theorem deliver_requests (r : Response) (s : State) : (deliver r s).requests = s.requests := rfl
@[simp] theorem deliver_responses (r : Response) (s : State) : (deliver r s).responses = s.responses ++ [r] := rfl

/-- What is presented is taken off the port again. -/
@[simp] theorem advance_present (rq : Request) (s : State) : advance (present rq s) = s := rfl

@[simp] theorem fetch_present (rq : Request) (s : State) : fetch (present rq s) = some rq := rfl

@[simp] theorem responseOf_status (ew : Nat) (r : Result) : (responseOf ew r).status = r.status := rfl
@[simp] theorem responseOf_errpos (ew : Nat) (r : Result) : (responseOf ew r).errpos = r.errpos := rfl
@[simp] theorem responseOf_olen (ew : Nat) (r : Result) : (responseOf ew r).olen = r.seq.length := rfl
@[simp] theorem responseOf_dout (ew : Nat) (r : Result) : (responseOf ew r).dout = packBits ew r.seq := rfl

end Sys2Proof.Machine
end

