-- ==== Sys2Proof/Laws/Ops.lean ====
section
/-! SUPPORT. What each shared operation can do: validation, performing an operation, one step. -/

namespace Sys2Proof.Machine

/-- A validated request: it fits, it is binary, and for ENCODE the codeword fits. -/
theorem validate_eq_none {c : Config} {op : Opcode} {len din : Nat} (hop : op ≠ .reserved) (hfit : c.fits len = true)
    (hbin : hasNonBinary c.ew len din = false) (henc : op = .encode → c.fits (len + plan len) = true) :
    validate c op len din = none := by
  have h : ¬ (op = .encode ∧ c.fits (len + plan len) = false) := fun ⟨h1, h2⟩ => by simp [henc h1] at h2
  simp [validate, hop, hfit, hbin, h]

/-- A length does not fit exactly when it exceeds a bounded CAP. -/
theorem fits_eq_false {c : Config} {m : Nat} : c.fits m = false ↔ ∃ cap, c.cap = some cap ∧ cap < m := by
  unfold Config.fits
  cases c.cap <;> simp

/-- The element check finds a position with a value of 2 or more. -/
theorem hasNonBinary_eq_true {ew len din : Nat} :
    hasNonBinary ew len din = true ↔ ∃ k, 1 ≤ k ∧ k ≤ len ∧ 2 ≤ elemAt ew din k := by
  simp [hasNonBinary, operand, and_assoc]

/-- An operand that passes the element check is the bit sequence it is read as. -/
theorem operand_of_binary {ew len din : Nat} (h : hasNonBinary ew len din = false) :
    operand ew len din = (operandBits ew len din).map Bool.toNat := by
  rw [operandBits, List.map_map]
  symm
  refine (List.map_congr_left (g := id) fun v hv => ?_).trans (List.map_id _)
  rw [hasNonBinary, List.any_eq_false] at h
  have hlt : v < 2 := by simpa using h v hv
  obtain rfl | rfl : v = 0 ∨ v = 1 := by omega
  · rfl
  · rfl

/-- Validation in three cases: the reserved code, a refused request, a request that is performed. -/
theorem validate_cases (c : Config) (op : Opcode) (len din : Nat) :
    (op = .reserved ∧ validate c op len din = some .illegalOp) ∨
    (op ≠ .reserved ∧ validate c op len din = some .invalidInput) ∨
    (op ≠ .reserved ∧ validate c op len din = none ∧ c.fits len = true ∧ hasNonBinary c.ew len din = false ∧
      (op = .encode → c.fits (len + plan len) = true)) := by
  unfold validate
  split_ifs with h1 h2 h3 h4 <;> simp_all

/-- Performing a validated operation on an operand that is the bit sequence `d`. -/
theorem perform_valid {s : State} {op : Opcode} {f : Bits → Result} {len din : Nat} {d : Bits}
    (hv : validate s.config op len din = none) (hd : operand s.config.ew len din = d.map Bool.toNat) :
    perform op f len din s = .next (deliver (responseOf s.config.ew (f d)) s) := by
  simp [perform, answer, hv, operandBits_eq hd]

/-- Performing an operation whose validation raises an outcome. -/
theorem perform_refused {s : State} {op : Opcode} {f : Bits → Result} {len din : Nat} {st : Status}
    (hv : validate s.config op len din = some st) : perform op f len din s = raiseOutcome st s := by
  simp [perform, answer, hv, raiseOutcome]

/-- The response of a result shows its sequence. -/
theorem shows_responseOf (c : Config) (r : Result) : Shows c (responseOf c.ew r) r.seq :=
  ⟨rfl, operand_packBits c.ew_pos r.seq, packBits_lt c.ew_pos r.seq⟩

/-- The response of a refusal shows the empty sequence. -/
theorem shows_refusalResponse (c : Config) (st : Status) : Shows c (refusalResponse st) [] := by
  simp [Shows, refusalResponse, operand, positions]

/-- An operation whose operand passes validation answers what its result says. -/
theorem answers_of_valid {i : Instr} {s : State} {op : Opcode} {f : Bits → Result} {d : Bits}
    (hi : exec i s = perform op f i.len i.din s) (hv : validate s.config op i.len i.din = none)
    (hd : operand s.config.ew i.len i.din = d.map Bool.toNat) : Answers i s (f d).status (f d).errpos (f d).seq :=
  ⟨_, hi.trans (perform_valid hv hd), rfl, rfl, shows_responseOf _ _⟩

/-- An operation that raises an outcome answers it with empty fields. -/
theorem answers_of_raise {i : Instr} {s : State} {st : Status} (hi : exec i s = raiseOutcome st s) :
    Answers i s st 0 [] :=
  ⟨_, hi, rfl, rfl, shows_refusalResponse _ _⟩

/-- What a step does, whenever it answers a next state: it decodes the presented request and performs the instruction on
the state with that request taken. -/
theorem step_next {s t : State} (h : step s = .next t) :
    ∃ rq rest i, s.requests = rq :: rest ∧ decodeRequest s.config rq = .ok i ∧ exec i (advance s) = .next t := by
  unfold step at h
  cases hr : s.requests with
  | nil => simp [fetch, hr] at h
  | cons rq rest =>
    simp only [fetch, hr, List.head?_cons] at h
    cases hd : decodeRequest s.config rq with
    | error e => simp [hd] at h
    | ok i => exact ⟨rq, rest, i, rfl, hd, by simpa [hd] using h⟩

end Sys2Proof.Machine
end

