-- ==== Sys2Proof/Laws/PerInstr.lean ====
section
/-! SUPPORT. Statements made per instruction: the encoder puts the row's code of spec/opcode_table.json in the `op` field
and the length above it (30_encoding.md R60, R61). -/

namespace Sys2Proof.Laws.OpcodeTable

/-- Where the instance has a packed command word, an instruction's word matches its own row of the opcode table and no
other, and holds the operand length above the two bits of the code. -/
def Statement (i : Instr) : Prop :=
  ∀ c lw, c.lw = some lw → ∃ cmd, (encodeRequest c i).command = .word cmd ∧ cmd / 4 = i.len ∧
    ∀ op : Opcode, cmd % 4 = op.code.toNat ↔ op = i.opcode

theorem of_code (i : Instr) : Statement i := by
  intro c lw h
  refine ⟨commandWord i.opcode.code i.len, by simp [encodeRequest, encodeCommand, h], ?_, fun op => ?_⟩
  · have := i.opcode.code.isLt
    simp only [commandWord]
    omega
  · have hlt := i.opcode.code.isLt
    have : commandWord i.opcode.code i.len % 4 = i.opcode.code.toNat := by
      simp only [commandWord]
      omega
    rw [this]
    generalize i.opcode = p
    cases op <;> cases p <;> decide

theorem encode (len din : Nat) : Statement (.encode len din) := of_code _
theorem decode (len din : Nat) : Statement (.decode len din) := of_code _
theorem extract (len din : Nat) : Statement (.extract len din) := of_code _
theorem reserved (len din : Nat) : Statement (.reserved len din) := of_code _

end Sys2Proof.Laws.OpcodeTable
end

