-- ==== Sys2Proof/Tests/Slice0.lean ====
section
/-! SUPPORT. Tests of the model. Expected values are those of spec/95_test_vectors.md (its sections are named), or written
out from the encoding of 30_encoding.md R60. The theorems witness_... show, for each statement with hypotheses, states
and operands that meet them. -/

namespace Sys2Proof.Tests

open Sys2Proof.Machine

/-- The next state, if there is one. -/
def nextOf : Host.Outcome State Fault Refusal → Option State
  | .next s => some s
  | .fault _ => none
  | .refused _ => none

/-- Why the machine refused, if it did. -/
def refusalOf : Host.Outcome State Fault Refusal → Option Refusal
  | .next _ => none
  | .fault _ => none
  | .refused r => some r

/-- An instance of width `ew` and capacity 21 to which one command word and one `din` are presented. -/
def start (ew : Nat) (h : 1 ≤ ew) (cmd din : Nat) : State :=
  { config := { cap := some 21, ew := ew, ew_pos := h }, requests := [⟨.word cmd, din⟩], responses := [] }

/-- The recommended instance, idle. -/
def idle : State := State.reset

/-- The responses after one step as the numbers a table of the spec prints: status code, errpos, olen, dout. -/
def answersOf (s : State) : Option (List (Nat × Nat × Nat × Nat)) :=
  (nextOf (step s)).map fun t => t.responses.map fun r => ((statusCode r.status).toNat, r.errpos, r.olen, r.dout)

/-! ### Well-formedness -/

/-- `len` has LW = 5 bits at CAP = 21: 32 is refused. -/
theorem test_wellFormed_refuses_long_length : (Instr.decode 32 0).wellFormed Config.recommended = false := by decide

/-- `din` has 21 bits at CAP = 21, EW = 1: `2^21` is refused. -/
theorem test_wellFormed_refuses_wide_din : (Instr.extract 3 (2 ^ 21)).wellFormed Config.recommended = false := by decide

/-- A length above CAP that the field can hold is well formed (R62). -/
theorem test_wellFormed_takes_length_above_cap : (Instr.encode 31 0).wellFormed Config.recommended = true := by decide

/-! ### Encodings: `cmd[1:0]` is `op`, `cmd[6:2]` is `len` (R60) -/

theorem test_decode_encode_word :
    decodeRequest Config.recommended ⟨.word 0b0010000, 0xD⟩ = .ok (.encode 4 0xD) := by rfl
theorem test_decode_decode_word :
    decodeRequest Config.recommended ⟨.word 0b0011101, 0x76⟩ = .ok (.decode 7 0x76) := by rfl
theorem test_decode_extract_word :
    decodeRequest Config.recommended ⟨.word 0b0011110, 0x66⟩ = .ok (.extract 7 0x66) := by rfl
theorem test_decode_reserved_word :
    decodeRequest Config.recommended ⟨.word 0b0011111, 0x66⟩ = .ok (.reserved 7 0x66) := by rfl
theorem test_decode_refuses_wide_word :
    decodeRequest Config.recommended ⟨.word 0b10000000, 0⟩ = .error .commandTooWide := by rfl
theorem test_decode_refuses_word_without_cap :
    decodeRequest { cap := none, ew := 1 } ⟨.word 0b0010000, 0⟩ = .error .noCommandWord := by rfl
theorem test_table_rows :
    decodeTableWord 8 0 = some (.encode 0 0) ∧ decodeTableWord 8 1 = some (.decode 0 0) ∧
      decodeTableWord 8 2 = some (.extract 0 0) ∧ decodeTableWord 8 3 = some (.reserved 0 0) := by decide
/-- The presented word is the first one answered after reset. -/
theorem test_withFetchWord_runs :
    answersOf (State.reset.withFetchWord 8 0b0000111) = some [(4, 0, 0, 0)] := by decide

/-! ### One step per instruction -/

/-- Section 1.6. -/
theorem test_encode_scenario : answersOf (start 1 (by decide) 0x10 0xD) = some [(0, 0, 7, 0x66)] := by decide
/-- Section 2.8, `EW = 2`: an element of value 2 is refused. -/
theorem test_encode_refuses_element : answersOf (start 2 (by decide) 0x10 0x59) = some [(2, 0, 0, 0)] := by decide
/-- Section 1.7, with the ignored bits of section 2.8. -/
theorem test_decode_corrects : answersOf (start 1 (by decide) 0x1D 0x1FFFF6) = some [(1, 5, 7, 0x66)] := by decide
/-- Section 2.5: positions 4 and 9 inverted at length 12. -/
theorem test_decode_unrecoverable : answersOf (start 1 (by decide) 0x31 0x5DE) = some [(3, 0, 12, 0x5DE)] := by decide
/-- Section 2.6, at the capacity. -/
theorem test_extract_at_capacity : answersOf (start 1 (by decide) 0x56 0x6352D) = some [(0, 0, 16, 0x3355)] := by decide
/-- Section 2.8: `len = 31 > CAP`. -/
theorem test_extract_refuses_length : answersOf (start 1 (by decide) 0x7E 0) = some [(2, 0, 0, 0)] := by decide
/-- Section 2.8: ILLEGAL_OP wins over the length. -/
theorem test_reserved_wins : answersOf (start 1 (by decide) 0x7F 0x1FFFFF) = some [(4, 0, 0, 0)] := by decide
/-- Section 3, P1: RECOVER of the corrupted codeword. -/
theorem test_recover_corrects :
    (recover 7 0x76 idle).map (·.2) = some ⟨.corrected, 5, 4, 0xD⟩ := by decide
/-- Section 3, P4: no data on UNRECOVERABLE. -/
theorem test_recover_withholds :
    (recover 12 0x5DE idle).map (·.2) = some ⟨.unrecoverable, 0, 0, 0⟩ := by decide
/-- Section 2.1. -/
theorem test_plan_table : [0, 1, 2, 4, 5, 11, 12, 26, 27].map plan = [0, 2, 3, 3, 4, 4, 5, 5, 6] := by decide
/-- Section 2.1: the valid codeword lengths up to 17. -/
theorem test_codeword_lengths : (List.range 18).filter isCodewordLength =
    [0, 3, 5, 6, 7, 9, 10, 11, 12, 13, 14, 15, 17] := by decide
theorem test_dpos_table : (List.range' 1 16).map dpos = [3, 5, 6, 7, 9, 10, 11, 12, 13, 14, 15, 17, 18, 19, 20, 21] := by
  decide
/-- R98. -/
theorem test_matrix_of_seven :
    (matrix 7).map (·.map Bool.toNat) = [[1, 0, 1, 0, 1, 0, 1], [0, 1, 1, 0, 0, 1, 1], [0, 0, 0, 1, 1, 1, 1]] := by decide
theorem test_step_without_request : refusalOf (step idle) = some .noRequest := by decide

/-! ### Witnesses: counts, positions, matrix -/

/-- The codeword of scenario 1 (section 1.6). -/
def scenario : Bits := [false, true, true, false, false, true, true]

/-- For PlanIsTheLeastParityCount, PlanGrowsAndHasItsClosedForm (both ends of the closed form at r = 3), DecoderRecoversTheParityCount. -/
theorem witness_plan : (4 + 3 + 1 ≤ 2 ^ 3) ∧ (4 ≤ 5 ∧ 0 < plan 1) ∧ 2 ≤ 3 ∧
    (2 ^ (3 - 1) - (3 - 1) ≤ 2 ∧ 2 ≤ 2 ^ 3 - 3 - 1 ∧ plan 2 = 3) ∧ (4 ≤ 2 ^ 3 - 3 - 1 ∧ plan 4 = 3) := by decide
/-- For RlenIsTheLeastCheckCount. -/
theorem witness_rlen : 7 + 1 ≤ 2 ^ 3 ∧ rlen 7 = 3 ∧ rlen 8 = 4 := by decide
/-- For ParityPositionsArePowersOfTwo, DataPositionsAreEnumerated, DataPositionClosedForm, ExtractChecksNothing. -/
theorem witness_positions : (1 ≤ 1 ∧ isPow2 1 = true) ∧ (1 ≤ 3 ∧ isPow2 3 = false ∧ dpos 1 = 3) := by decide
/-- For MatrixColumnsAreThePositions, at the last and the first row and column. -/
theorem witness_matrix : (2 < rlen 7 ∧ 1 ≤ 7 ∧ 7 ≤ 7) ∧ (0 < rlen 7 ∧ 1 ≤ 1 ∧ 1 ≤ 7) ∧ 2 < rlen scenario.length := by
  decide
/-- For InversionMovesTheSyndrome, at both ends. -/
theorem witness_inversion : (1 ≤ 1 ∧ 1 ≤ scenario.length) ∧ (1 ≤ 7 ∧ 7 ≤ scenario.length) := by decide
/-- For SyndromeFitsTheLengthField, also at the capacity. -/
theorem witness_syndrome_width : scenario ≠ [] ∧ Config.recommended.fits scenario.length = true ∧
    Config.recommended.fits (List.replicate 21 true).length = true := by decide
/-- For CodewordLengthsAreNoPowersOfTwo. -/
theorem witness_codeword_length : 7 = 4 + plan 4 ∧ 0 = 0 + plan 0 := by decide

/-! ### Witnesses: ENCODE -/

/-- For PlacementFollowsTheDataOrder, EncodedChecksAreZero, SyndromeAccumulatesTheChecks. -/
theorem witness_placement :
    (1 ≤ 1 ∧ 1 ≤ [true, false, true, true].length) ∧ (1 ≤ 4 ∧ 4 ≤ [true, false, true, true].length) ∧
      2 < plan [true, false, true, true].length := by decide
/-- For EncodeAnswersTheCodeword: the largest ENCODE, and a `din` with bits beyond the sequence. -/
theorem witness_encode : (Carries idle.config 16 0xFFFF (List.replicate 16 true) ∧
    idle.config.fits (16 + plan 16) = true) ∧
    Carries idle.config 4 0x1FFFFD [true, false, true, true] ∧ idle.config.fits (4 + plan 4) = true := by decide
/-- For EncodeAnswersTheCodeword, ValidationDecidesRefusals: cause (a). -/
theorem witness_cause_element : InvalidInputCause (start 2 (by decide) 0 0).config (.encode 4 0x59) :=
  .inl ⟨2, by decide, by decide, by decide⟩
/-- For DecodeAnswersByTheSyndrome, ValidationDecidesRefusals: cause (b), the first length beyond CAP. -/
theorem witness_cause_length : InvalidInputCause idle.config (.decode 22 0) := .inr (.inl ⟨21, rfl, by decide⟩)
/-- For EncodeAnswersTheCodeword, ValidationDecidesRefusals: cause (c), the first length whose codeword does not fit. -/
theorem witness_cause_result : InvalidInputCause idle.config (.encode 17 0) :=
  .inr (.inr ⟨rfl, 21, rfl, by decide⟩)
/-- For ExtractAnswersTheDataBits. -/
theorem witness_cause_extract : InvalidInputCause (start 2 (by decide) 0 0).config (.extract 1 2) :=
  .inl ⟨1, by decide, by decide, by decide⟩
/-- For ValidationDecidesRefusals: no cause at the capacity. -/
theorem witness_no_cause : (Instr.decode 21 0).opcode ≠ .reserved ∧ ¬ InvalidInputCause idle.config (.decode 21 0) := by
  refine ⟨by decide, ?_⟩
  rintro (⟨k, -, -, hk⟩ | ⟨cap, hc, hl⟩ | ⟨hop, -⟩)
  · simp [elemAt, Instr.din] at hk
  · cases hc
    simp [Instr.len] at hl
  · cases hop
/-- For ValidationDecidesRefusals: its last two clauses. -/
theorem witness_unbounded_cause : idle.config.ew = 1 ∧ ({ cap := none, ew := 2 } : Config).cap = none ∧
    InvalidInputCause { cap := none, ew := 2 } (.encode 1 2) :=
  ⟨rfl, rfl, .inl ⟨1, by decide, by decide, by decide⟩⟩
/-- For EncoderIsABijectionOntoZeroSyndrome, CodewordsDifferInThreePositions. -/
theorem witness_bijection :
    ([true].length = [false].length ∧ [true] ≠ [false]) ∧ scenario.length = 4 + plan 4 ∧ syndrome scenario = 0 := by decide

/-! ### Witnesses: DECODE, EXTRACT, RECOVER -/

/-- For DecodeAnswersByTheSyndrome (OK), DecodingTwiceIsDecodingOnce. -/
theorem witness_decode_clean : Carries idle.config 7 0x66 scenario ∧ syndrome scenario = 0 := by decide
/-- For DecodeAnswersByTheSyndrome (CORRECTED at position 1). -/
theorem witness_decode_first : Carries idle.config 7 0x67 (flipBit scenario 1) ∧ syndrome (flipBit scenario 1) = 1 := by
  decide
/-- For DecodeAnswersByTheSyndrome (CORRECTED at the last position). -/
theorem witness_decode_last : Carries idle.config 7 0x26 (flipBit scenario 7) ∧
    syndrome (flipBit scenario 7) = 7 := by decide
/-- For DecodeAnswersByTheSyndrome (UNRECOVERABLE just beyond the sequence). -/
theorem witness_decode_beyond :
    Carries idle.config 2 3 [true, true] ∧ [true, true].length < syndrome [true, true] := by decide
/-- For SingleInversionIsCorrected, EncodedDataRoundTrips: the codeword is the one ENCODE answers to the data. -/
theorem witness_single_inversion :
    encodeBits [true, false, true, true] = scenario ∧ Carries idle.config 4 0xD [true, false, true, true] ∧
      idle.config.fits (4 + plan 4) = true ∧ Carries idle.config scenario.length 0x1FFFE7 (flipBit scenario 1) ∧
      (1 ≤ 7 ∧ 7 ≤ scenario.length) ∧ Carries idle.config scenario.length 0x26 (flipBit scenario 7) := by decide
/-- For DoubleInversionIsMiscorrectedOrReported, CORRECTED. -/
theorem witness_double_inversion_miscorrected : encodeBits [true, false, true, true] = scenario ∧
    Carries idle.config scenario.length 0x65 (flipBit (flipBit scenario 1) 2) ∧ 1 ^^^ 2 ≤ scenario.length := by decide
/-- For DoubleInversionIsMiscorrectedOrReported, UNRECOVERABLE (section 2.5: length 5, positions 2 and 4). -/
theorem witness_double_inversion_reported : encodeBits [true, false] = [true, true, true, false, false] ∧
    Carries idle.config 5 0xD (flipBit (flipBit [true, true, true, false, false] 2) 4) ∧ 5 < 2 ^^^ 4 := by decide
/-- For FullLengthsAreNeverUnrecoverable. -/
theorem witness_full_length : [true, true, false].length = 2 ^ 2 - 1 ∧
    Carries idle.config 3 0x3 [true, true, false] := by decide
/-- For PowerOfTwoLengthsAreServed. -/
theorem witness_power_of_two_length : [true, true, true, false].length = 2 ^ 2 ∧
    Carries idle.config (2 ^ 2) 0x7 [true, true, true, false] ∧ syndrome [true, true, true, false] = 0 := by decide
/-- For ExtractAnswersTheDataBits, also for the empty sequence with free bits. -/
theorem witness_extract : Carries idle.config 7 0x66 scenario ∧ Carries idle.config 0 0x1F [] ∧
    1 ≤ (extractBits scenario).length := by decide
/-- For RecoverDeliversTheData. -/
theorem witness_recover : encodeBits [true, false, true, true] = scenario ∧
    fitsWidth idle.config.portWidth 0x66 = true ∧ Carries idle.config scenario.length 0x66 scenario ∧
    fitsWidth idle.config.portWidth 0x76 = true ∧ Carries idle.config scenario.length 0x76 (flipBit scenario 5) := by decide
/-- For RecoverFollowsTheSyndrome: OK and CORRECTED on a sequence three and two inversions away from the codeword of
scenario 1 (section 2.5), CORRECTED at the last position, UNRECOVERABLE just beyond it. -/
theorem witness_recover_any : fitsWidth idle.config.portWidth 0x65 = true ∧
    (Carries idle.config 7 0x61 (flipBit (flipBit (flipBit scenario 1) 2) 3) ∧
      syndrome (flipBit (flipBit (flipBit scenario 1) 2) 3) = 0) ∧
    (Carries idle.config 7 0x65 (flipBit (flipBit scenario 1) 2) ∧ syndrome (flipBit (flipBit scenario 1) 2) = 3) ∧
    (Carries idle.config 7 0x26 (flipBit scenario 7) ∧ syndrome (flipBit scenario 7) = 7) ∧
    (Carries idle.config 2 3 [true, true] ∧ 2 < syndrome [true, true]) := by decide
/-- Section 3, P5: the miscorrection goes through RECOVER. -/
theorem test_recover_miscorrects : (recover 7 0x65 idle).map (·.2) = some ⟨.corrected, 3, 4, 0xC⟩ := by decide
/-- For RecoverWithholdsDataOnFailure, UNRECOVERABLE. -/
theorem witness_recover_unrecoverable : (Instr.decode 12 0x5DE).wellFormed idle.config = true ∧
    exec (.decode 12 0x5DE) idle = .next { idle with responses := idle.responses ++ [⟨.unrecoverable, 0, 12, 0x5DE⟩] } :=
  ⟨by decide, congrArg Host.Outcome.next (by decide)⟩
/-- For RecoverWithholdsDataOnFailure, INVALID_INPUT. -/
theorem witness_recover_invalid : (Instr.decode 22 0).wellFormed idle.config = true ∧
    exec (.decode 22 0) idle = .next { idle with responses := idle.responses ++ [⟨.invalidInput, 0, 0, 0⟩] } :=
  ⟨by decide, congrArg Host.Outcome.next (by decide)⟩

/-! ### Witnesses: ports, encodings, steps, runs -/

/-- For BitsBeyondTheOperandAreIgnored. -/
theorem witness_ignored_bits : 0x1FFFFD % 2 ^ (4 * idle.config.ew) = 0xD % 2 ^ (4 * idle.config.ew) ∧
    (1 ≤ 4 ∧ 4 ≤ 4) := by decide
/-- For ResultElementsStandInOrder. -/
theorem witness_result_elements : 1 ≤ 2 ∧ 0 < 2 ∧ 1 < 2 ∧ 1 ≤ 1 := by decide
/-- For DecodeOfEncodedInstruction. -/
theorem witness_wellFormed : (Instr.reserved 31 (2 ^ 21 - 1)).wellFormed Config.recommended = true ∧
    (Instr.encode 1000 (2 ^ 40)).wellFormed { cap := none, ew := 3 } = true := by decide
/-- For EveryCommandWordMatchesOneRow, EncodeOfDecodedRequest: the largest word. -/
theorem witness_command_word : Config.recommended.lw = some 5 ∧ 127 < 2 ^ (5 + 2) ∧
    fitsWidth Config.recommended.portWidth (2 ^ 21 - 1) = true := by decide
/-- For EncodeOfDecodedRequest: fields. -/
theorem witness_fields : decodeRequest Config.recommended ⟨.fields 0b10#2 31, 0⟩ = .ok (.extract 31 0) := by rfl
/-- For StepRunsTheDecodedInstruction. -/
theorem witness_step : (start 1 (by decide) 0x1D 0x76).requests = ⟨.word 0x1D, 0x76⟩ :: [] ∧
    decodeRequest (start 1 (by decide) 0x1D 0x76).config ⟨.word 0x1D, 0x76⟩ = .ok (.decode 7 0x76) := ⟨rfl, rfl⟩
/-- For StepStopsOnlyWithoutARequest, RunsAnswerEveryRequestByItself, OperationsCommute, ResetBlockAnswersAsAnyOther: the largest port values. -/
theorem witness_presentable : Presentable Config.recommended ⟨.word 127, 2 ^ 21 - 1⟩ :=
  ⟨⟨5, rfl, by decide⟩, fun w h => by
    cases h
    decide⟩
/-- The same, for an instance without a packed word. -/
theorem witness_presentable_fields : Presentable { cap := none, ew := 2 } ⟨.fields 0b01#2 99, 2 ^ 70⟩ :=
  ⟨fun _ h => (by cases h), fun _ h => (by cases h)⟩
/-- For StepStopsOnlyWithoutARequest: the first word that is none. -/
theorem witness_not_presentable : ¬ Presentable Config.recommended ⟨.word 128, 0⟩ := by
  rintro ⟨⟨lw, h, hlt⟩, -⟩
  cases h
  revert hlt
  decide
/-- For StepStopsOnlyWithoutARequest: no request. -/
theorem witness_idle : idle.requests = [] := rfl
/-- A response in range, for StepKeepsResponsesInRange. -/
theorem witness_in_range : InRange idle.config ⟨.corrected, 7, 7, 0x66⟩ := by
  refine ⟨by decide, by decide, by decide, by decide, by decide, by decide⟩
/-- For StepKeepsResponsesInRange: a state with a response in range from which a step answers a next state. -/
theorem witness_step_keeps : ∃ s t : State, ResponsesInRange s ∧ s.responses ≠ [] ∧ step s = .next t := by
  refine ⟨{ start 1 (by decide) 0x1D 0x76 with responses := [⟨.corrected, 7, 7, 0x66⟩] }, _, ?_, by simp, rfl⟩
  intro r hr
  rw [List.mem_singleton.mp hr]
  exact witness_in_range
/-- For RunsKeepTheParameters: a run of two presentable requests. -/
theorem witness_run : ∃ t, Host.Core.run core 2
    { idle with requests := [⟨.word 0x10, 0xD⟩, ⟨.word 127, 0⟩] } = .next t ∧ t.requests = [] := ⟨_, rfl, rfl⟩

end Sys2Proof.Tests
end

/-! The response of a request as one function of the parameters and the request (10_state.md R20), and runs over
presentable requests as repeated use of it. -/
section
namespace Sys2Proof.Machine

/-- The response an instruction gets from an instance with parameters `c`. -/
def responseTo (c : Config) : Instr → Response
  | .encode len din => answer c .encode encodeResult len din
  | .decode len din => answer c .decode decodeResult len din
  | .extract len din => answer c .extract extractResult len din
  | .reserved _ _ => refusalResponse .illegalOp

/-- Executing an instruction delivers its response and does nothing else. -/
theorem exec_eq_deliver (i : Instr) (s : State) : exec i s = .next (deliver (responseTo s.config i) s) := by
  cases i <;> rfl

theorem fitsWidth_iff {w : Option Nat} {v : Nat} : fitsWidth w v = true ↔ ∀ k, w = some k → v < 2 ^ k := by
  cases w <;> simp [fitsWidth]

/-- The decoder refuses no value of the ports. -/
theorem decodeRequest_of_presentable {c : Config} {rq : Request} (h : Presentable c rq) :
    ∃ i, decodeRequest c rq = .ok i := by
  obtain ⟨command, din⟩ := rq
  obtain ⟨hcommand, hdin⟩ := h
  rw [← fitsWidth_iff] at hdin
  cases command with
  | word cmd =>
    obtain ⟨lw, hlw, hlt⟩ := hcommand
    simp [decodeRequest, decodeCommand, hlw, hlt, hdin]
  | fields op len =>
    simp [decodeRequest, decodeCommand, fitsWidth_iff.mpr hcommand, hdin]

/-- The response to a request. A request that does not decode gets none (log 5); the value for it is never delivered. -/
def responseToRequest (c : Config) (rq : Request) : Response :=
  match decodeRequest c rq with
  | .ok i => responseTo c i
  | .error _ => refusalResponse .invalidInput

theorem responseToRequest_of_decode {c : Config} {rq : Request} {i : Instr} (h : decodeRequest c rq = .ok i) :
    responseToRequest c rq = responseTo c i := by
  simp [responseToRequest, h]

/-- A step on a request that decodes executes its instruction with the request taken. -/
theorem step_of_decode {s : State} {rq : Request} {rest : List Request} {i : Instr} (hs : s.requests = rq :: rest)
    (hi : decodeRequest s.config rq = .ok i) : step s = exec i (advance s) := by
  simp [step, fetch, hs, hi]

/-- A step on a presentable request takes it and delivers its response. -/
theorem step_of_presentable {s : State} {rq : Request} {rest : List Request} (hs : s.requests = rq :: rest)
    (h : Presentable s.config rq) : step s = .next (deliver (responseToRequest s.config rq) (advance s)) := by
  obtain ⟨i, hi⟩ := decodeRequest_of_presentable h
  rw [step_of_decode hs hi, exec_eq_deliver, responseToRequest_of_decode hi, advance_config]

theorem run_succ_of_step {M : Host.Core} {s t : M.State} (h : M.step s = .next t) (k : Nat) :
    M.run (k + 1) s = M.run k t := by
  simp only [Host.Core.run, h]

/-- A run over presentable requests delivers the response to each in order. -/
theorem run_of_presentable {rqs : List Request} {s : State} (hs : s.requests = rqs)
    (h : ∀ rq ∈ rqs, Presentable s.config rq) :
    Host.Core.run core rqs.length s =
      .next { s with requests := [], responses := s.responses ++ rqs.map (responseToRequest s.config) } := by
  induction rqs generalizing s with
  | nil =>
    have hend : s = { s with requests := [], responses := s.responses ++ [] } := by rw [List.append_nil, ← hs]
    exact congrArg Host.Outcome.next hend
  | cons rq rest ih =>
    obtain ⟨hrq, hrest⟩ := List.forall_mem_cons.mp h
    calc Host.Core.run core (rest.length + 1) s
      _ = Host.Core.run core rest.length (deliver (responseToRequest s.config rq) (advance s)) :=
        run_succ_of_step (M := core) (step_of_presentable hs hrq) _
      _ = _ := ih (by simp [hs]) hrest
      _ = _ := by simp

/-- Settles O48: the function is `responseToRequest`, by induction on the pending requests. -/
theorem runsAnswerEveryRequestByItself : Obligations.RunsAnswerEveryRequestByItself :=
  ⟨responseToRequest, fun _ h => run_of_presentable rfl h⟩

end Sys2Proof.Machine
end

/-! The encodings of 30_encoding.md: which status an instruction is answered with (R65), and which bits of `din` an
operation reads (R63). -/
section
namespace Sys2Proof.Machine

/-- A status and its code determine each other. -/
theorem statusOf_eq_some_iff {code : BitVec 3} {st : Status} : statusOf code = some st ↔ statusCode st = code := by
  revert code
  cases st <;> decide

/-- DECODE ends in one of three outcomes. -/
theorem decodeResult_status (code : Bits) :
    (decodeResult code).status = .ok ∨ (decodeResult code).status = .corrected ∨
      (decodeResult code).status = .unrecoverable := by
  unfold decodeResult
  split_ifs
  · exact .inl rfl
  · exact .inr (.inl rfl)
  · exact .inr (.inr rfl)

/-- An operation answers INVALID_INPUT or the status of what it computes. -/
theorem answer_status {op : Opcode} (hop : op ≠ .reserved) (c : Config) (f : Bits → Result) (len din : Nat) :
    (answer c op f len din).status = .invalidInput ∨
      (answer c op f len din).status = (f (operandBits c.ew len din)).status := by
  obtain ⟨hres, -⟩ | ⟨-, hv⟩ | ⟨-, hv, -⟩ := validate_cases c op len din
  · exact absurd hres hop
  · exact .inl (by simp [answer, hv, refusalResponse])
  · exact .inr (by simp [answer, hv])

/-- Which operation produces which status (R65). -/
theorem responseTo_status (c : Config) (i : Instr) :
    (i.opcode = .reserved ∧ (responseTo c i).status = .illegalOp) ∨
    (i.opcode ≠ .reserved ∧ ((responseTo c i).status = .ok ∨ (responseTo c i).status = .invalidInput)) ∨
    (i.opcode = .decode ∧ ((responseTo c i).status = .corrected ∨ (responseTo c i).status = .unrecoverable)) := by
  cases i with
  | encode len din => exact .inr (.inl ⟨nofun, (answer_status (op := .encode) nofun c encodeResult len din).symm⟩)
  | extract len din => exact .inr (.inl ⟨nofun, (answer_status (op := .extract) nofun c extractResult len din).symm⟩)
  | reserved len din => exact .inl ⟨rfl, rfl⟩
  | decode len din =>
    obtain h | h := answer_status (op := .decode) nofun c decodeResult len din
    · exact .inr (.inl ⟨nofun, .inr h⟩)
    · obtain hd | hd := decodeResult_status (operandBits c.ew len din)
      · exact .inr (.inl ⟨nofun, .inl (h.trans hd)⟩)
      · exact .inr (.inr ⟨rfl, hd.imp h.trans h.trans⟩)

/-- Settles O34, by the cases of `responseTo_status`. -/
theorem statusCodesAndTheirProducers : Obligations.StatusCodesAndTheirProducers := by
  refine ⟨⟨rfl, rfl, rfl, rfl, rfl⟩, fun _ _ => statusOf_eq_some_iff, fun s i => ⟨_, exec_eq_deliver i s, ?_⟩⟩
  obtain ⟨hop, hst⟩ | ⟨hop, hst | hst⟩ | ⟨hop, hst | hst⟩ := responseTo_status s.config i <;> simp [hop, hst]

/-- An element has the `EW` bits of the port at its place (R63). -/
theorem testBit_elemAt (ew v k b : Nat) :
    (elemAt ew v k).testBit b = (decide (b < ew) && v.testBit ((k - 1) * ew + b)) := by
  rw [elemAt, Nat.testBit_mod_two_pow, Nat.testBit_shiftRight]

theorem operand_getD {ew len din k : Nat} (h1 : 1 ≤ k) (h2 : k ≤ len) :
    (operand ew len din).getD (k - 1) 0 = elemAt ew din k := by
  have hlt : k - 1 < len := by omega
  have hk : 1 + (k - 1) = k := by omega
  simp [operand, positions, List.getD_eq_getElem?_getD, hlt, hk]

/-- The elements of an operand of length `len` lie below bit `len * EW`. -/
theorem elemAt_mod {ew len k : Nat} (din : Nat) (h1 : 1 ≤ k) (h2 : k ≤ len) :
    elemAt ew (din % 2 ^ (len * ew)) k = elemAt ew din k := by
  refine Nat.eq_of_testBit_eq fun b => ?_
  rw [testBit_elemAt, testBit_elemAt, Nat.testBit_mod_two_pow]
  by_cases hb : b < ew
  · have hlt : (k - 1) * ew + b < len * ew :=
      calc (k - 1) * ew + b < (k - 1) * ew + ew := by omega
        _ = (k - 1 + 1) * ew := (Nat.succ_mul _ _).symm
        _ ≤ len * ew := Nat.mul_le_mul_right ew (by omega)
    simp [hlt]
  · simp [hb]

theorem operand_mod (ew len din : Nat) : operand ew len (din % 2 ^ (len * ew)) = operand ew len din :=
  List.map_congr_left fun _ hk => elemAt_mod din (mem_positions.mp hk).1 (mem_positions.mp hk).2

/-- Validation reads `din` through the operand sequence alone. -/
theorem validate_congr {c : Config} {len din din' : Nat} (h : operand c.ew len din = operand c.ew len din')
    (op : Opcode) : validate c op len din = validate c op len din' := by
  unfold validate hasNonBinary
  rw [h]

/-- An operation reads `din` through the operand sequence alone. -/
theorem answer_congr {c : Config} {len din din' : Nat} (h : operand c.ew len din = operand c.ew len din')
    (op : Opcode) (f : Bits → Result) : answer c op f len din = answer c op f len din' := by
  unfold answer operandBits
  rw [validate_congr h, h]

theorem responseTo_instrOf_congr {c : Config} {len din din' : Nat}
    (h : operand c.ew len din = operand c.ew len din') (op : Opcode) :
    responseTo c (instrOf op len din) = responseTo c (instrOf op len din') := by
  cases op with
  | encode => exact answer_congr h _ _
  | decode => exact answer_congr h _ _
  | extract => exact answer_congr h _ _
  | reserved => rfl

/-- Settles O35: the operand reads nothing from bit `len * EW` upwards, and a response reads nothing but the operand. -/
theorem bitsBeyondTheOperandAreIgnored : Obligations.BitsBeyondTheOperandAreIgnored := by
  refine ⟨fun ew len din => ⟨length_operand ew len din, fun k b h1 h2 => ?_⟩, fun s op len din din' h => ?_⟩
  · rw [operand_getD h1 h2, testBit_elemAt]
  · have hoperand : operand s.config.ew len din = operand s.config.ew len din' := by
      rw [← operand_mod, h, operand_mod]
    rw [exec_eq_deliver, exec_eq_deliver, responseTo_instrOf_congr hoperand]

end Sys2Proof.Machine
end

/-! The two counts of 40_parity_check_matrix.md, `plan` (R90) and `rlen` (R93): each is the value `leastFrom_spec` gives
its loop, since a value within the loop's fuel satisfies the loop's condition. -/
section
namespace Sys2Proof.Machine

/-- What the loop of `plan` finds. -/
theorem plan_spec (n : Nat) : n + plan n + 1 ≤ 2 ^ plan n ∧ ∀ r, n + r + 1 ≤ 2 ^ r → plan n ≤ r := by
  have hfuel : n + (n + 1) + 1 ≤ 2 ^ (n + 1) :=
    calc n + (n + 1) + 1 = (n + 1) * 2 := by omega
      _ ≤ 2 ^ n * 2 := Nat.mul_le_mul_right 2 Nat.lt_two_pow_self
      _ = 2 ^ (n + 1) := (Nat.pow_succ ..).symm
  obtain ⟨hsat, hleast⟩ := leastFrom_spec (fun r => decide (n + r + 1 ≤ 2 ^ r)) (n + 1) 0
    ⟨n + 1, by omega, by omega, decide_eq_true hfuel⟩
  exact ⟨of_decide_eq_true hsat, fun r hr => hleast r r.zero_le (decide_eq_true hr)⟩

/-- What the loop of `rlen` finds. -/
theorem rlen_spec (m : Nat) : m + 1 ≤ 2 ^ rlen m ∧ ∀ r, m + 1 ≤ 2 ^ r → rlen m ≤ r := by
  obtain ⟨hsat, hleast⟩ := leastFrom_spec (fun r => decide (m + 1 ≤ 2 ^ r)) m 0
    ⟨m, by omega, by omega, decide_eq_true Nat.lt_two_pow_self⟩
  exact ⟨of_decide_eq_true hsat, fun r hr => hleast r r.zero_le (decide_eq_true hr)⟩

/-- The two clauses of R93 as one equivalence: `r` digits hold `m` exactly when `m` is below `2^r`. -/
theorem rlen_le_iff {m r : Nat} : rlen m ≤ r ↔ m < 2 ^ r := by
  obtain ⟨hsat, hleast⟩ := rlen_spec m
  exact ⟨fun h => hsat.trans (Nat.pow_le_pow_right Nat.two_pos h), hleast r⟩

/-- Both sides are at most `r` for the same `r`, those with `m < 2^r`. -/
theorem rlen_eq_length_digits (m : Nat) : rlen m = (Nat.digits 2 m).length :=
  eq_of_forall_ge_iff fun _ => rlen_le_iff.trans (Nat.digits_length_le_iff Nat.one_lt_two m).symm

/-- Settles O1, by the loop's specification. -/
theorem planIsTheLeastParityCount : Obligations.PlanIsTheLeastParityCount :=
  ⟨plan_spec, by decide⟩

/-- Settles O3: the loop's specification, and binary digits counted by the powers of two. -/
theorem rlenIsTheLeastCheckCount : Obligations.RlenIsTheLeastCheckCount :=
  ⟨rlen_spec, rlen_eq_length_digits, rfl⟩

end Sys2Proof.Machine
end

/-! Positions and the sequences read at them (40_parity_check_matrix.md sections 1 to 3): which bits of a position say
what it is, how many data positions a length has, and where `dpos` finds the `k`-th of them. -/
section
namespace Sys2Proof.Machine

/-- The parity positions are the powers of two (R95). -/
theorem isPow2_iff {j : Nat} (hj : 1 ≤ j) : isPow2 j = true ↔ ∃ i, j = 2 ^ i := by
  simp [isPow2, hj, Nat.and_sub_one_eq_zero_iff_isPowerOfTwo (Nat.ne_of_gt hj), Nat.isPowerOfTwo]

@[simp] theorem isPow2_two_pow (i : Nat) : isPow2 (2 ^ i) = true := (isPow2_iff Nat.one_le_two_pow).mpr ⟨i, rfl⟩

/-- Check `i` covers the positions with bit `i` set (R97). -/
theorem covers_eq_testBit (i j : Nat) : covers i j = j.testBit i := by
  rw [covers, Nat.and_two_pow]
  cases j.testBit i <;> simp

/-- A check covers its own parity position and no other parity position (R97). -/
theorem covers_two_pow {i k : Nat} : covers i (2 ^ k) = true ↔ k = i := by
  simp [covers_eq_testBit, Nat.testBit_two_pow]

/-- The positions a check covers beside its own parity position are data positions. -/
theorem isPow2_eq_false_of_covers {i j : Nat} (hj : 1 ≤ j) (hcov : covers i j = true) (hne : j ≠ 2 ^ i) :
    isPow2 j = false := by
  refine Bool.eq_false_iff.mpr fun hpow => ?_
  obtain ⟨k, rfl⟩ := (isPow2_iff hj).mp hpow
  exact hne (congrArg (2 ^ ·) (covers_two_pow.mp hcov))

/-- One more position needs one more binary digit exactly when it is a power of two. -/
theorem rlen_succ (m : Nat) : rlen (m + 1) = rlen m + (isPow2 (m + 1)).toNat := by
  cases hpow : isPow2 (m + 1) with
  | true =>
    obtain ⟨i, hi⟩ := (isPow2_iff (Nat.le_add_left 1 m)).mp hpow
    have hm : rlen m = i := eq_of_forall_ge_iff fun r => by
      rw [rlen_le_iff, ← Nat.add_one_le_iff, hi, Nat.pow_le_pow_iff_right Nat.one_lt_two]
    have hm1 : rlen (m + 1) = i + 1 := eq_of_forall_ge_iff fun r => by
      rw [rlen_le_iff, hi, Nat.pow_lt_pow_iff_right Nat.one_lt_two, Nat.add_one_le_iff]
    rw [hm, hm1, Bool.toNat_true]
  | false =>
    refine eq_of_forall_ge_iff fun r => ?_
    have hne : m + 1 ≠ 2 ^ r := fun h => by simp [h] at hpow
    simp only [Bool.toNat_false, Nat.add_zero, rlen_le_iff]
    omega

/-- Every position is a data position or one of the `rlen(m)` parity positions (R96). -/
theorem length_dataPositions_add_rlen (m : Nat) : (dataPositions m).length + rlen m = m := by
  induction m with
  | zero => rfl
  | succ m ih =>
    have hlen : (dataPositions (m + 1)).length = (dataPositions m).length + (!isPow2 (m + 1)).toNat := by
      rw [dataPositions, positions_succ, List.filter_append, List.length_append, ← dataPositions]
      cases h : isPow2 (m + 1) <;> simp [h]
    rw [hlen, rlen_succ]
    have hone : (!isPow2 (m + 1)).toNat + (isPow2 (m + 1)).toNat = 1 := by cases isPow2 (m + 1) <;> rfl
    omega

/-- Below the parity count of `n` data bits no number of checks suffices. -/
theorem two_pow_lt_of_lt_plan {n i : Nat} (h : i < plan n) : 2 ^ i < n + i + 1 := by
  obtain ⟨-, hleast⟩ := plan_spec n
  exact Nat.lt_of_not_le fun hle => absurd (hleast i hle) (Nat.not_le.mpr h)

/-- The decoder recovers from the codeword length the count the encoder used (R94). -/
theorem rlen_codewordLength (n : Nat) : rlen (n + plan n) = plan n := by
  refine eq_of_forall_ge_iff fun r => ?_
  obtain ⟨hsat, -⟩ := plan_spec n
  rw [rlen_le_iff]
  constructor
  · intro hlt
    by_contra hr
    have := two_pow_lt_of_lt_plan (Nat.lt_of_not_le hr)
    omega
  · exact fun hr => lt_of_lt_of_le hsat (Nat.pow_le_pow_right Nat.two_pos hr)

/-- A codeword for `n` data bits has `n` data positions (R96). -/
theorem length_dataPositions_codewordLength (n : Nat) : (dataPositions (n + plan n)).length = n := by
  have := length_dataPositions_add_rlen (n + plan n)
  rw [rlen_codewordLength] at this
  omega

/-- The parity positions of a codeword lie inside it. -/
theorem two_pow_mem_positions {n i : Nat} (h : i < plan n) : 2 ^ i ∈ positions (n + plan n) := by
  have := two_pow_lt_of_lt_plan h
  exact mem_positions.mpr ⟨Nat.one_le_two_pow, by omega⟩

/-- A longer sequence has the same data positions first. -/
theorem dataPositions_prefix (m l : Nat) : dataPositions m <+: dataPositions (m + l) := by
  refine List.IsPrefix.filter _ ⟨List.range' (1 + m) l, ?_⟩
  simp [positions]

/-- The bound within which `dpos` looks for the `k`-th data position is high enough. -/
theorem le_length_dataPositions (k : Nat) : k ≤ (dataPositions (2 * k + 1)).length := by
  have hlen := length_dataPositions_add_rlen (2 * k + 1)
  have hr : rlen (2 * k + 1) ≤ k + 1 := by
    have : k < 2 ^ k := Nat.lt_two_pow_self
    rw [rlen_le_iff, Nat.pow_succ]
    omega
  omega

/-- `dpos` enumerates the data positions of every length (R96). -/
theorem getElem?_dataPositions {m k : Nat} (h1 : 1 ≤ k) (h2 : k ≤ (dataPositions m).length) :
    (dataPositions m)[k - 1]? = some (dpos k) := by
  have hk := le_length_dataPositions k
  have hsearch := List.prefix_iff_getElem?.mp (dataPositions_prefix (2 * k + 1) m) (k - 1) (by omega)
  have hhere := List.prefix_iff_getElem?.mp (dataPositions_prefix m (2 * k + 1)) (k - 1) (by omega)
  rw [Nat.add_comm, hhere] at hsearch
  rw [List.getElem?_eq_getElem (by omega), hsearch, dpos, List.getD_eq_getElem?_getD,
    List.getElem?_eq_getElem (by omega), Option.getD_some]

/-- Reading a sequence at its positions in turn gives the sequence. -/
theorem map_bitAt_positions (c : Bits) : (positions c.length).map (bitAt c) = c := by
  refine List.ext_getElem (by simp) fun k _ hk => ?_
  simp [positions, Nat.add_comm 1 k, List.getD_eq_getElem?_getD, hk]

/-- EXTRACT reads the `k`-th data bit at the `k`-th data position (R130). -/
theorem bitAt_extractBits {c : Bits} {k : Nat} (h1 : 1 ≤ k) (h2 : k ≤ (extractBits c).length) :
    bitAt (extractBits c) k = bitAt c (dpos k) := by
  have hk : k ≤ (dataPositions c.length).length := by simpa [extractBits] using h2
  obtain ⟨k, rfl⟩ : ∃ n, k = n + 1 := ⟨k - 1, by omega⟩
  have hpos : (dataPositions c.length)[k]? = some (dpos (k + 1)) := getElem?_dataPositions h1 hk
  rw [bitAt_succ, List.getD_eq_getElem?_getD, extractBits, List.getElem?_map, hpos]
  rfl

/-- EXTRACT depends on the data positions alone (R132). -/
theorem extractBits_congr {c c' : Bits} (hl : c.length = c'.length)
    (h : ∀ j, isPow2 j = false → bitAt c j = bitAt c' j) : extractBits c = extractBits c' := by
  rw [extractBits, extractBits, hl]
  exact List.map_congr_left fun j hj => h j (mem_dataPositions.mp hj).2

end Sys2Proof.Machine
end

/-! The two steps of ENCODE (41_hamming_encoder.md): the placement (R111) is read back at the data positions, and the
parities (R112) are all computed from the placed data, since a check covers no parity position but its own. -/
section
namespace Sys2Proof.Machine

@[simp] theorem length_place (js : List Nat) (d : Bits) : (place js d).length = js.length := by
  induction js generalizing d with
  | nil => rfl
  | cons j js ih =>
    cases hj : isPow2 j with
    | true => simp [place, hj, ih]
    | false => cases d <;> simp [place, hj, ih]

/-- When there are as many data bits as data positions, those positions read the data bits in order. -/
theorem map_filter_of_place {js : List Nat} {d : Bits} {f : Nat → Bit} (hplace : place js d = js.map f)
    (hlen : (js.filter fun j => !isPow2 j).length = d.length) : (js.filter fun j => !isPow2 j).map f = d := by
  induction js generalizing d with
  | nil => exact (List.eq_nil_of_length_eq_zero hlen.symm).symm
  | cons j js ih =>
    cases hj : isPow2 j with
    | true =>
      obtain ⟨-, hrest⟩ : false = f j ∧ place js d = js.map f := by simpa [place, hj] using hplace
      simpa [hj] using ih hrest (by simpa [hj] using hlen)
    | false =>
      cases d with
      | nil => simp [hj] at hlen
      | cons b d =>
        obtain ⟨hb, hrest⟩ : b = f j ∧ place js d = js.map f := by simpa [place, hj] using hplace
        simpa [hj, hb] using ih hrest (by simpa [hj] using hlen)

/-- The parity positions are placed as 0. -/
theorem eq_false_of_place {js : List Nat} {d : Bits} {f : Nat → Bit} (hplace : place js d = js.map f) :
    ∀ j ∈ js, isPow2 j = true → f j = false := by
  induction js generalizing d with
  | nil => nofun
  | cons j js ih =>
    have hhead : isPow2 j = true → f j = false := fun hj => by
      simp only [place, hj, if_true, List.map_cons, List.cons.injEq] at hplace
      exact hplace.1.symm
    obtain ⟨rest, hrest⟩ : ∃ rest, place js rest = js.map f := by
      cases hj : isPow2 j with
      | true => exact ⟨d, by simpa [place, hj] using congrArg List.tail hplace⟩
      | false => cases d <;> exact ⟨_, by simpa [place, hj] using congrArg List.tail hplace⟩
    exact List.forall_mem_cons.mpr ⟨hhead, ih hrest⟩

/-- The codeword of `d` after the placement, its parity positions still 0 (R111). -/
def placed (d : Bits) : Bits := place (positions (d.length + plan d.length)) d

theorem encodeBits_eq (d : Bits) : encodeBits d = fillParity (plan d.length) (placed d) := rfl

@[simp] theorem length_placed (d : Bits) : (placed d).length = d.length + plan d.length := by simp [placed]

theorem placed_eq_map (d : Bits) :
    place (positions (d.length + plan d.length)) d =
      (positions (d.length + plan d.length)).map (bitAt (placed d)) := by
  rw [← length_placed, map_bitAt_positions, placed, length_place, length_positions]

/-- The placement is undone by reading the data positions. -/
theorem extractBits_placed (d : Bits) : extractBits (placed d) = d := by
  rw [extractBits, length_placed]
  exact map_filter_of_place (placed_eq_map d) (length_dataPositions_codewordLength d.length)

theorem bitAt_placed_two_pow {d : Bits} {i : Nat} (h : i < plan d.length) : bitAt (placed d) (2 ^ i) = false :=
  eq_false_of_place (placed_eq_map d) _ (two_pow_mem_positions h) (isPow2_two_pow i)

/-- A sequence whose data positions hold `d` holds `d{k}` at `dpos(k)`. -/
theorem bitAt_dpos_of_extractBits {c d : Bits} (hd : extractBits c = d) {k : Nat} (h1 : 1 ≤ k) (h2 : k ≤ d.length) :
    bitAt c (dpos k) = bitAt d k := by
  subst hd
  exact (bitAt_extractBits h1 h2).symm

/-- Settles O14: reading the data positions undoes the placement, and `dpos` enumerates those positions. -/
theorem placementFollowsTheDataOrder : Obligations.PlacementFollowsTheDataOrder := fun d =>
  ⟨length_placed d, fun _ h1 h2 => bitAt_dpos_of_extractBits (extractBits_placed d) h1 h2,
    fun _ h => bitAt_placed_two_pow h⟩

/-- A parity depends on the data positions alone. -/
theorem parityBit_congr {c c' : Bits} (hl : c.length = c'.length)
    (h : ∀ j, isPow2 j = false → bitAt c j = bitAt c' j) (i : Nat) : parityBit c i = parityBit c' i := by
  rw [parityBit, parityBit, hl]
  refine xorOver_congr fun j hj => h j ?_
  simp only [cover, List.mem_filter, mem_positions, bne_iff_ne] at hj
  obtain ⟨⟨⟨hpos, -⟩, hcov⟩, hne⟩ := hj
  exact isPow2_eq_false_of_covers hpos hcov hne

@[simp] theorem fillParity_zero (c : Bits) : fillParity 0 c = c := rfl

theorem fillParity_succ (r : Nat) (c : Bits) :
    fillParity (r + 1) c = setBit (fillParity r c) (2 ^ r) (parityBit (fillParity r c) r) := by
  simp [fillParity, List.range_succ]

@[simp] theorem length_fillParity (r : Nat) (c : Bits) : (fillParity r c).length = c.length := by
  induction r with
  | zero => rfl
  | succ r ih => rw [fillParity_succ, length_setBit, ih]

/-- The second step leaves the data positions as they are. -/
theorem bitAt_fillParity_data (r : Nat) (c : Bits) {j : Nat} (hj : isPow2 j = false) :
    bitAt (fillParity r c) j = bitAt c j := by
  induction r with
  | zero => rfl
  | succ r ih =>
    have hne : j ≠ 2 ^ r := by
      rintro rfl
      simp at hj
    rw [fillParity_succ, bitAt_setBit_other _ _ hne, ih]

/-- Filling in parities changes no parity, so the order of the loop does not matter. -/
theorem parityBit_fillParity (r : Nat) (c : Bits) (i : Nat) : parityBit (fillParity r c) i = parityBit c i :=
  parityBit_congr (length_fillParity r c) (fun _ hj => bitAt_fillParity_data r c hj) i

theorem bitAt_fillParity_two_pow {r i : Nat} {c : Bits} (hi : i < r) (hin : 2 ^ i ≤ c.length) :
    bitAt (fillParity r c) (2 ^ i) = parityBit c i := by
  induction r with
  | zero => exact absurd hi i.not_lt_zero
  | succ r ih =>
    rw [fillParity_succ, parityBit_fillParity]
    obtain hlt | rfl := Nat.lt_succ_iff_lt_or_eq.mp hi
    · have hne : 2 ^ i ≠ 2 ^ r := (Nat.pow_lt_pow_right Nat.one_lt_two hlt).ne
      rw [bitAt_setBit_other _ _ hne, ih hlt]
    · exact bitAt_setBit_self _ Nat.one_le_two_pow (by simpa using hin)

@[simp] theorem length_encodeBits (d : Bits) : (encodeBits d).length = d.length + plan d.length := by
  simp [encodeBits_eq]

/-- EXTRACT gives back the data of a codeword (R131). -/
theorem extractBits_encodeBits (d : Bits) : extractBits (encodeBits d) = d :=
  calc extractBits (encodeBits d) = extractBits (placed d) :=
        extractBits_congr (by simp) fun _ hj => bitAt_fillParity_data _ _ hj
    _ = d := extractBits_placed d

/-- Each parity position of a codeword holds the parity of the codeword (R112, R113). -/
theorem bitAt_encodeBits_two_pow {d : Bits} {i : Nat} (h : i < plan d.length) :
    bitAt (encodeBits d) (2 ^ i) = parityBit (encodeBits d) i := by
  have hin : 2 ^ i ≤ (placed d).length := by simpa using (mem_positions.mp (two_pow_mem_positions h)).2
  rw [encodeBits_eq, bitAt_fillParity_two_pow h hin, parityBit_fillParity]

end Sys2Proof.Machine
end

/-! The checks of a codeword (R114): a check is its own parity position and the parity computed for it. -/
section
namespace Sys2Proof.Machine

/-- One listed position can be taken out of an exclusive-OR over different positions. -/
theorem xorOver_eq_xor_filter_ne {js : List Nat} {p : Nat} (hp : p ∈ js) (hnodup : js.Nodup) (f : Nat → Bit) :
    xorOver js f = xor (f p) (xorOver (js.filter fun j => j != p) f) :=
  calc xorOver js f = xorOver (p :: js.erase p) f :=
        (List.perm_cons_erase hp).foldr_eq' (fun j _ k _ _ => Bool.xor_left_comm (f k) (f j) _) false
    _ = xor (f p) (xorOver (js.filter fun j => j != p) f) := by rw [xorOver_cons, hnodup.erase_eq_filter]

theorem nodup_cover (i m : Nat) : (cover i m).Nodup := (List.nodup_range' 1).filter _

/-- A check is the exclusive-OR of its parity position and the parity of the other positions it covers. -/
theorem chk_eq_xor_parityBit {c : Bits} {i : Nat} (hin : 2 ^ i ∈ positions c.length) :
    chk i c = xor (bitAt c (2 ^ i)) (parityBit c i) :=
  xorOver_eq_xor_filter_ne (List.mem_filter.mpr ⟨hin, covers_two_pow.mpr rfl⟩) (nodup_cover i c.length) _

/-- Every check of a codeword is zero (R114). -/
theorem chk_encodeBits {d : Bits} {i : Nat} (h : i < plan d.length) : chk i (encodeBits d) = false := by
  have hin : 2 ^ i ∈ positions (encodeBits d).length := by simpa using two_pow_mem_positions h
  rw [chk_eq_xor_parityBit hin, bitAt_encodeBits_two_pow h, Bool.xor_self]

/-- A sequence whose checks are all zero has syndrome 0 (R99). -/
theorem syndrome_eq_zero {c : Bits} (h : ∀ i < rlen c.length, chk i c = false) : syndrome c = 0 := by
  refine List.sum_eq_zero fun v hv => ?_
  obtain ⟨i, hi, rfl⟩ := List.mem_map.mp hv
  simp [h i (List.mem_range.mp hi)]

/-- A codeword has syndrome 0 (R114). -/
theorem syndrome_encodeBits (d : Bits) : syndrome (encodeBits d) = 0 := by
  refine syndrome_eq_zero fun i hi => ?_
  rw [length_encodeBits, rlen_codewordLength] at hi
  exact chk_encodeBits hi

end Sys2Proof.Machine
end

/-! What the three operations answer at the ports (R110, R120, R130): a refusal when a cause holds, else the result of
the sequence carried. -/
section
namespace Sys2Proof.Machine

/-- A request with a cause of refusal does not pass validation (60_exceptions.md R141). -/
theorem validate_of_cause {c : Config} {i : Instr} (hop : i.opcode ≠ .reserved) (hcause : InvalidInputCause c i) :
    validate c i.opcode i.len i.din = some .invalidInput := by
  obtain ⟨hres, -⟩ | ⟨-, hv⟩ | ⟨-, -, hfit, hbin, henc⟩ := validate_cases c i.opcode i.len i.din
  · exact absurd hres hop
  · exact hv
  · obtain helem | hlen | ⟨hencode, hcode⟩ := hcause
    · exact absurd (hasNonBinary_eq_true.mpr helem) (by simp [hbin])
    · exact absurd (fits_eq_false.mpr hlen) (by simp [hfit])
    · exact absurd (fits_eq_false.mpr hcode) (by simp [henc hencode])

/-- An operation with a cause of refusal answers INVALID_INPUT with empty fields. -/
theorem answers_of_cause {i : Instr} {s : State} {f : Bits → Result}
    (hi : exec i s = perform i.opcode f i.len i.din s) (hop : i.opcode ≠ .reserved)
    (hcause : InvalidInputCause s.config i) : Answers i s .invalidInput 0 [] :=
  answers_of_raise (hi.trans (perform_refused (validate_of_cause hop hcause)))

/-- An operation on a carried sequence answers what it computes from it; for ENCODE the codeword has to fit too. -/
theorem answers_of_carries {i : Instr} {s : State} {f : Bits → Result} {d : Bits}
    (hi : exec i s = perform i.opcode f i.len i.din s) (hop : i.opcode ≠ .reserved)
    (hd : Carries s.config i.len i.din d)
    (henc : i.opcode = .encode → s.config.fits (i.len + plan i.len) = true) :
    Answers i s (f d).status (f d).errpos (f d).seq := by
  obtain ⟨hfit, -, hoperand⟩ := hd
  exact answers_of_valid hi (validate_eq_none hop hfit (hasNonBinary_eq_false hoperand) henc) hoperand

/-- ENCODE of a sequence whose codeword fits answers the codeword. -/
theorem answers_encode {s : State} {len din : Nat} {d : Bits} (hd : Carries s.config len din d)
    (hcode : s.config.fits (len + plan len) = true) : Answers (.encode len din) s .ok 0 (encodeBits d) :=
  answers_of_carries (f := encodeResult) rfl nofun hd fun _ => hcode

/-- DECODE of a carried sequence answers its result. -/
theorem answers_decode {s : State} {len din : Nat} {code : Bits} (hcode : Carries s.config len din code) :
    Answers (.decode len din) s (decodeResult code).status (decodeResult code).errpos (decodeResult code).seq :=
  answers_of_carries rfl nofun hcode nofun

/-- EXTRACT of a carried sequence answers its data positions. -/
theorem answers_extract {s : State} {len din : Nat} {code : Bits} (hcode : Carries s.config len din code) :
    Answers (.extract len din) s .ok 0 (extractBits code) :=
  answers_of_carries (f := extractResult) rfl nofun hcode nofun

/-- DECODE leaves a sequence of syndrome 0 unchanged (R122). -/
theorem decodeResult_of_syndrome_zero {code : Bits} (h : syndrome code = 0) :
    decodeResult code = ⟨.ok, 0, code⟩ := by
  simp [decodeResult, h]

/-- The parity of R112 in the terms of the statement: the other positions with bit `i` set, in one filter. -/
theorem parityBit_eq_xorOver (c : Bits) (i : Nat) :
    parityBit c i = xorOver ((positions c.length).filter fun j => (j &&& 2 ^ i) != 0 && j != 2 ^ i) (bitAt c) := by
  simp only [parityBit, cover, List.filter_filter, covers, Bool.and_comm]

/-- Settles O15: the answer is `encodeBits d`, read at the data positions and at the parity positions. -/
theorem encodeAnswersTheCodeword : Obligations.EncodeAnswersTheCodeword := by
  refine fun s len din => ⟨answers_of_cause (f := encodeResult) rfl nofun, fun d hd hcode => ?_⟩
  refine ⟨encodeBits d, answers_encode hd hcode, length_encodeBits d, ?_, fun i hi => ?_⟩
  · exact fun k h1 h2 => bitAt_dpos_of_extractBits (extractBits_encodeBits d) h1 h2
  · rw [bitAt_encodeBits_two_pow hi, parityBit_eq_xorOver]

/-- Settles O23: a codeword has syndrome 0, and its data positions hold the data. -/
theorem encodedDataRoundTrips : Obligations.EncodedDataRoundTrips := by
  refine fun s len din d hd hcode => ⟨encodeBits d, answers_encode hd hcode, fun t din' hconfig hcarried => ?_⟩
  rw [← hconfig] at hcarried
  constructor
  · simpa only [decodeResult_of_syndrome_zero (syndrome_encodeBits d)] using answers_decode hcarried
  · simpa only [extractBits_encodeBits] using answers_extract hcarried

end Sys2Proof.Machine
end

/-! The syndrome as the accumulated checks (42_hamming_decoder.md R121), and what inverting one position does to the
sequence, to its checks and to its syndrome (40_parity_check_matrix.md R99). -/
section
namespace Sys2Proof.Machine

/-- The checks that are not zero, in ascending order: their numbers are the set bits of the syndrome. -/
theorem bitIndices_syndrome (c : Bits) :
    (syndrome c).bitIndices = (List.range (rlen c.length)).filter fun i => chk i c := by
  have hsum : syndrome c = (((List.range (rlen c.length)).filter fun i => chk i c).map (2 ^ ·)).sum := by
    simp [syndrome, List.sum_map_ite]
  rw [hsum, Nat.bitIndices_sum_map_two_pow (List.pairwise_lt_range.filter _).sortedLT]

/-- Bit `i` of the syndrome is check `i`, for the checks the sequence has (R121). -/
theorem testBit_syndrome (c : Bits) (i : Nat) :
    (syndrome c).testBit i = (decide (i < rlen c.length) && chk i c) := by
  rw [Bool.eq_iff_iff, ← Nat.mem_bitIndices, bitIndices_syndrome]
  simp

/-- Settles O20: a check is the exclusive-OR over the positions of the statement, and the checks are the syndrome's
bits. -/
theorem syndromeAccumulatesTheChecks : Obligations.SyndromeAccumulatesTheChecks :=
  testBit_syndrome

@[simp] theorem length_flipBit (c : Bits) (p : Nat) : (flipBit c p).length = c.length := length_setBit ..

theorem bitAt_flipBit_self {c : Bits} {p : Nat} (h1 : 1 ≤ p) (h2 : p ≤ c.length) :
    bitAt (flipBit c p) p = !bitAt c p := bitAt_setBit_self _ h1 h2

theorem bitAt_flipBit_other (c : Bits) {j p : Nat} (h : j ≠ p) : bitAt (flipBit c p) j = bitAt c j :=
  bitAt_setBit_other _ _ h

theorem bitAt_flipBit {c : Bits} {p : Nat} (h1 : 1 ≤ p) (h2 : p ≤ c.length) (j : Nat) :
    bitAt (flipBit c p) j = if j = p then !bitAt c j else bitAt c j := by
  split_ifs with hj
  · rw [hj, bitAt_flipBit_self h1 h2]
  · exact bitAt_flipBit_other c hj

/-- A position inverted twice is as it was. -/
theorem flipBit_flipBit {c : Bits} {p : Nat} (h1 : 1 ≤ p) (h2 : p ≤ c.length) : flipBit (flipBit c p) p = c := by
  refine bits_ext (by simp) fun j _ _ => ?_
  rw [bitAt_flipBit h1 (by simpa using h2), bitAt_flipBit h1 h2]
  split_ifs <;> simp

/-- An inverted position changes the checks that cover it and no others. -/
theorem chk_flipBit {c : Bits} {p : Nat} (h1 : 1 ≤ p) (h2 : p ≤ c.length) (i : Nat) :
    chk i (flipBit c p) = xor (chk i c) (covers i p) := by
  have hrest : ∀ js : List Nat, p ∉ js → xorOver js (bitAt (flipBit c p)) = xorOver js (bitAt c) := fun js hp =>
    xorOver_congr fun j hj => bitAt_flipBit_other c (ne_of_mem_of_not_mem hj hp)
  rw [chk, chk, length_flipBit]
  cases hcov : covers i p with
  | false => simp [hrest, cover, hcov]
  | true =>
    have hp : p ∈ cover i c.length := List.mem_filter.mpr ⟨mem_positions.mpr ⟨h1, h2⟩, hcov⟩
    rw [xorOver_eq_xor_filter_ne hp (nodup_cover ..), xorOver_eq_xor_filter_ne hp (nodup_cover ..) (bitAt c),
      hrest _ (by simp), bitAt_flipBit_self h1 h2]
    simp

/-- Inverting position `p` changes the syndrome by exclusive-OR with `p` (R99). -/
theorem syndrome_flipBit {c : Bits} {p : Nat} (h1 : 1 ≤ p) (h2 : p ≤ c.length) :
    syndrome (flipBit c p) = syndrome c ^^^ p := by
  refine Nat.eq_of_testBit_eq fun i => ?_
  rw [Nat.testBit_xor, testBit_syndrome, testBit_syndrome, length_flipBit, chk_flipBit h1 h2, covers_eq_testBit]
  by_cases hi : i < rlen c.length
  · simp [hi]
  · have hp : p.testBit i = false :=
      Nat.testBit_lt_two_pow (h2.trans_lt (rlen_le_iff.mp (Nat.le_of_not_lt hi)))
    simp [hi, hp]

end Sys2Proof.Machine
end

/-! The three outcomes of DECODE (R120, R122), the correction of one inverted position of a codeword (R124) and the
answer of EXTRACT (R130). -/
section
namespace Sys2Proof.Machine

/-- DECODE inverts the position a syndrome inside the sequence names (R122). -/
theorem decodeResult_of_syndrome_le {code : Bits} (h1 : 1 ≤ syndrome code) (h2 : syndrome code ≤ code.length) :
    decodeResult code = ⟨.corrected, syndrome code, flipBit code (syndrome code)⟩ := by
  simp [decodeResult, Nat.ne_of_gt h1, h2]

/-- DECODE reports a syndrome beyond the sequence and corrects nothing (R122). -/
theorem decodeResult_of_length_lt_syndrome {code : Bits} (h : code.length < syndrome code) :
    decodeResult code = ⟨.unrecoverable, 0, code⟩ := by
  simp [decodeResult, Nat.ne_of_gt (Nat.zero_lt_of_lt h), Nat.not_le.mpr h]

/-- What DECODE answers to a carried sequence whose result is known. -/
theorem answers_decode_of_eq {s : State} {len din : Nat} {code : Bits} {st : Status} {e : Nat} {c : Bits}
    (hcode : Carries s.config len din code) (h : decodeResult code = ⟨st, e, c⟩) :
    Answers (.decode len din) s st e c := by
  simpa only [h] using answers_decode hcode

/-- Settles O21, by the three cases of the syndrome. -/
theorem decodeAnswersByTheSyndrome : Obligations.DecodeAnswersByTheSyndrome := by
  refine fun s len din => ⟨answers_of_cause (f := decodeResult) rfl nofun, fun code hcode => ?_⟩
  refine ⟨fun h => ?_, fun h1 h2 => ?_, fun h => ?_⟩
  · exact answers_decode_of_eq hcode (decodeResult_of_syndrome_zero h)
  · exact ⟨flipBit code (syndrome code), answers_decode_of_eq hcode (decodeResult_of_syndrome_le h1 h2),
      length_flipBit .., fun j _ _ => bitAt_flipBit h1 h2 j⟩
  · exact answers_decode_of_eq hcode (decodeResult_of_length_lt_syndrome h)

/-- DECODE finds and restores the one position in which a sequence differs from one of syndrome 0 (R124). -/
theorem decodeResult_flipBit_of_syndrome_zero {c : Bits} {p : Nat} (hc : syndrome c = 0) (h1 : 1 ≤ p)
    (h2 : p ≤ c.length) : decodeResult (flipBit c p) = ⟨.corrected, p, c⟩ := by
  have hsyn : syndrome (flipBit c p) = p := by rw [syndrome_flipBit h1 h2, hc, Nat.zero_xor]
  have hdecode := decodeResult_of_syndrome_le (code := flipBit c p) (by rwa [hsyn]) (by rwa [hsyn, length_flipBit])
  rwa [hsyn, flipBit_flipBit h1 h2] at hdecode

/-- Settles O22: a codeword has syndrome 0, and inverting position `p` makes it `p`. -/
theorem singleInversionIsCorrected : Obligations.SingleInversionIsCorrected := by
  refine fun s len din d hd hfit =>
    ⟨encodeBits d, answers_encode hd hfit, length_encodeBits d, fun t din' hconfig => ?_⟩
  have hsyn := syndrome_encodeBits d
  rw [← hconfig]
  exact ⟨fun hcode => answers_decode_of_eq hcode (decodeResult_of_syndrome_zero hsyn), fun p h1 h2 hcode =>
    answers_decode_of_eq hcode (decodeResult_flipBit_of_syndrome_zero hsyn h1 h2)⟩

/-- EXTRACT gives as many bits as there are data positions (R130). -/
theorem length_extractBits (c : Bits) : (extractBits c).length = c.length - rlen c.length := by
  rw [extractBits, List.length_map, ← Nat.eq_sub_of_add_eq (length_dataPositions_add_rlen c.length)]

/-- Settles O28: the answer is `extractBits code`, whose bits stand at the data positions in order. -/
theorem extractAnswersTheDataBits : Obligations.ExtractAnswersTheDataBits := fun _ _ _ =>
  ⟨answers_of_cause (f := extractResult) rfl nofun, fun code hcode =>
    ⟨extractBits code, answers_extract hcode, length_extractBits code, fun _ => bitAt_extractBits⟩⟩

end Sys2Proof.Machine
end

/-! Validation decides every refusal (60_exceptions.md R141, R143, R147): the reserved code first, then a cause of
refusal, and a request without a cause is performed. -/
section
namespace Sys2Proof.Machine

/-- Settles O32: the reserved code raises ILLEGAL_OP without reading `len` or `din`. -/
theorem reservedCodeAnswersIllegalOp : Obligations.ReservedCodeAnswersIllegalOp := fun _ _ _ => answers_of_raise rfl

/-- What the three operations have in common: each is performed after validation, and what it computes has no status of
refusal (60_exceptions.md R147). -/
theorem exec_eq_perform_of_opcode_ne_reserved {i : Instr} (hop : i.opcode ≠ .reserved) (s : State) :
    ∃ f : Bits → Result, exec i s = perform i.opcode f i.len i.din s ∧
      ∀ d, (f d).status ≠ .invalidInput ∧ (f d).status ≠ .illegalOp := by
  cases i with
  | encode len din => exact ⟨encodeResult, rfl, fun _ => ⟨nofun, nofun⟩⟩
  | decode len din =>
    refine ⟨decodeResult, rfl, fun d => ?_⟩
    obtain h | h | h := decodeResult_status d <;> simp [h]
  | extract len din => exact ⟨extractResult, rfl, fun _ => ⟨nofun, nofun⟩⟩
  | reserved len din => exact absurd rfl hop

/-- A request without a cause of refusal carries the bits it is read as. -/
theorem carries_of_not_cause {c : Config} {i : Instr} (h : ¬ InvalidInputCause c i) :
    Carries c i.len i.din (operandBits c.ew i.len i.din) := by
  simp only [InvalidInputCause, not_or] at h
  obtain ⟨helem, hlen, -⟩ := h
  rw [← hasNonBinary_eq_true, Bool.not_eq_true] at helem
  rw [← fits_eq_false, Bool.not_eq_false] at hlen
  exact ⟨hlen, (length_operandBits ..).symm, operand_of_binary helem⟩

/-- The codeword of an ENCODE without a cause of refusal fits. -/
theorem fits_codeword_of_not_cause {c : Config} {i : Instr} (h : ¬ InvalidInputCause c i) (hop : i.opcode = .encode) :
    c.fits (i.len + plan i.len) = true :=
  eq_true_of_ne_false fun hfit => h (.inr (.inr ⟨hop, fits_eq_false.mp hfit⟩))

/-- With `EW = 1` an element is one bit. -/
theorem elemAt_lt_two {ew : Nat} (h : ew = 1) (v k : Nat) : elemAt ew v k < 2 := by
  subst h
  exact Nat.mod_lt _ (by decide)

/-- With CAP unbounded a cause of refusal is a non-binary element. -/
theorem nonBinary_of_cause_of_unbounded {c : Config} {i : Instr} (hcap : c.cap = none) (h : InvalidInputCause c i) :
    ∃ k, 1 ≤ k ∧ k ≤ i.len ∧ 2 ≤ elemAt c.ew i.din k := by
  obtain helem | ⟨cap, hsome, -⟩ | ⟨-, cap, hsome, -⟩ := h
  · exact helem
  all_goals exact absurd (hcap.symm.trans hsome) nofun

/-- Settles O33: by the operation code, then by whether a cause holds. -/
theorem validationDecidesRefusals : Obligations.ValidationDecidesRefusals := by
  refine fun s i => ⟨fun hop => ?_, fun hop hcause => ?_, fun hop hcause => ?_,
    fun hew k => elemAt_lt_two hew i.din k, nonBinary_of_cause_of_unbounded⟩
  · cases i with
    | reserved len din => exact reservedCodeAnswersIllegalOp s len din
    | _ => exact absurd hop nofun
  · obtain ⟨f, hi, -⟩ := exec_eq_perform_of_opcode_ne_reserved hop s
    exact answers_of_cause hi hop hcause
  · obtain ⟨f, hi, hstatus⟩ := exec_eq_perform_of_opcode_ne_reserved hop s
    exact ⟨_, _, _, answers_of_carries hi hop (carries_of_not_cause hcause) (fits_codeword_of_not_cause hcause),
      hstatus _⟩

end Sys2Proof.Machine
end

/-! The ranges of the response fields (10_state.md R27): every response is in range, whatever the request, so a step keeps
all of them in range, and a response in range fits its ports (00_scope.md R8). -/
section
namespace Sys2Proof.Machine

/-- A shorter sequence fits where a longer one does. -/
theorem fits_of_le {c : Config} {m n : Nat} (hle : m ≤ n) (h : c.fits n = true) : c.fits m = true := by
  refine eq_true_of_ne_false fun hm => ?_
  obtain ⟨cap, hcap, hlt⟩ := fits_eq_false.mp hm
  exact absurd (fits_eq_false.mpr ⟨cap, hcap, hlt.trans_le hle⟩) (by simp [h])

/-- A length that fits is at most a bounded CAP. -/
theorem le_of_fits {c : Config} {m cap : Nat} (h : c.fits m = true) (hcap : c.cap = some cap) : m ≤ cap := by
  by_contra hlt
  exact absurd (fits_eq_false.mpr ⟨cap, hcap, Nat.lt_of_not_le hlt⟩) (by simp [h])

/-- The ranges of R27 on the side of the pseudocode: what a performed operation returns. -/
structure ResultInRange (c : Config) (r : Result) : Prop where
  fits : c.fits r.seq.length = true
  errpos_le : r.errpos ≤ r.seq.length
  errpos_ne_zero_iff : r.errpos ≠ 0 ↔ r.status = .corrected
  performed : r.status ≠ .invalidInput ∧ r.status ≠ .illegalOp

/-- A shown bit sequence has no element above 1. -/
theorem le_one_of_mem_operand {ew len dout : Nat} {d : Bits} (h : operand ew len dout = d.map Bool.toNat) :
    ∀ v ∈ operand ew len dout, v ≤ 1 := by
  rw [h]
  exact List.forall_mem_map.mpr fun b _ => Bool.toNat_le b

theorem inRange_responseOf {c : Config} {r : Result} (h : ResultInRange c r) : InRange c (responseOf c.ew r) := by
  obtain ⟨-, hoperand, hlt⟩ := shows_responseOf c r
  obtain ⟨hnotInvalid, hnotIllegal⟩ := h.performed
  exact ⟨h.fits, h.errpos_le, h.errpos_ne_zero_iff, le_one_of_mem_operand hoperand, hlt, fun hst =>
    absurd hst (not_or.mpr ⟨hnotInvalid, hnotIllegal⟩)⟩

theorem inRange_refusalResponse (c : Config) {st : Status} (h : st ≠ .corrected) : InRange c (refusalResponse st) := by
  obtain ⟨-, hoperand, hlt⟩ := shows_refusalResponse c st
  have hfits : c.fits 0 = true := by unfold Config.fits; cases c.cap <;> simp
  exact ⟨hfits, le_rfl, ⟨fun hne => absurd rfl hne, fun hst => absurd hst h⟩, le_one_of_mem_operand hoperand, hlt,
    fun _ => ⟨rfl, rfl, rfl⟩⟩

/-- An operation answers in range when its result is, on every sequence that passes validation. -/
theorem inRange_answer {c : Config} {op : Opcode} {f : Bits → Result}
    (hf : ∀ d : Bits, c.fits d.length = true → (op = .encode → c.fits (d.length + plan d.length) = true) →
      ResultInRange c (f d)) (len din : Nat) : InRange c (answer c op f len din) := by
  unfold answer
  obtain ⟨-, hv⟩ | ⟨-, hv⟩ | ⟨-, hv, hfit, -, hencode⟩ := validate_cases c op len din <;> rw [hv]
  · exact inRange_refusalResponse c nofun
  · exact inRange_refusalResponse c nofun
  · exact inRange_responseOf (hf _ (by rwa [length_operandBits]) (by rwa [length_operandBits]))

theorem resultInRange_encode {c : Config} {d : Bits} (h : c.fits (d.length + plan d.length) = true) :
    ResultInRange c (encodeResult d) :=
  ⟨by rwa [encodeResult, length_encodeBits], Nat.zero_le _, by simp [encodeResult], nofun, nofun⟩

theorem resultInRange_extract {c : Config} {code : Bits} (h : c.fits code.length = true) :
    ResultInRange c (extractResult code) := by
  have hlen : (extractBits code).length ≤ code.length := by rw [length_extractBits]; exact Nat.sub_le ..
  exact ⟨fits_of_le hlen h, Nat.zero_le _, by simp [extractResult], nofun, nofun⟩

/-- DECODE reports a position of the sequence, exactly when it inverts one. -/
theorem resultInRange_decode {c : Config} {code : Bits} (h : c.fits code.length = true) :
    ResultInRange c (decodeResult code) := by
  obtain hzero | hpos := Nat.eq_zero_or_pos (syndrome code)
  · rw [decodeResult_of_syndrome_zero hzero]
    exact ⟨h, Nat.zero_le _, by simp, nofun, nofun⟩
  obtain hle | hlt := le_or_gt (syndrome code) code.length
  · rw [decodeResult_of_syndrome_le hpos hle]
    exact ⟨by rwa [length_flipBit], by rwa [length_flipBit], by simp [Nat.ne_of_gt hpos], nofun, nofun⟩
  · rw [decodeResult_of_length_lt_syndrome hlt]
    exact ⟨h, Nat.zero_le _, by simp, nofun, nofun⟩

/-- Every instruction is answered in range. -/
theorem inRange_responseTo (c : Config) (i : Instr) : InRange c (responseTo c i) := by
  cases i with
  | encode len din => exact inRange_answer (fun _ _ hcode => resultInRange_encode (hcode rfl)) len din
  | decode len din => exact inRange_answer (fun _ hfit _ => resultInRange_decode hfit) len din
  | extract len din => exact inRange_answer (fun _ hfit _ => resultInRange_extract hfit) len din
  | reserved len din => exact inRange_refusalResponse c nofun

/-- A step that answers a next state takes the presented request and delivers the response to its instruction. -/
theorem step_next_deliver {s t : State} (h : step s = .next t) :
    ∃ rq rest i, s.requests = rq :: rest ∧ decodeRequest s.config rq = .ok i ∧
      t = deliver (responseTo s.config i) (advance s) := by
  obtain ⟨rq, rest, i, hrq, hi, hexec⟩ := step_next h
  rw [exec_eq_deliver, advance_config] at hexec
  exact ⟨rq, rest, i, hrq, hi, (Host.Outcome.next.inj hexec).symm⟩

/-- Settles O37: the one response a step adds is in range, and the parameters stay. -/
theorem stepKeepsResponsesInRange : Obligations.StepKeepsResponsesInRange := by
  intro s t hs hstep
  obtain ⟨_, _, i, _, _, rfl⟩ := step_next_deliver hstep
  exact List.forall_mem_append.mpr ⟨hs, List.forall_mem_singleton.mpr (inRange_responseTo s.config i)⟩

/-- Settles O38: after reset there is no response. -/
theorem resetResponsesAreInRange : Obligations.ResetResponsesAreInRange :=
  List.forall_mem_nil _

/-- Settles O51, by definition. -/
theorem resetHoldsNothing : Obligations.ResetHoldsNothing :=
  rfl

/-- Settles O46: the response is `responseTo`. -/
theorem everyOperationAddsOneResponse : Obligations.EveryOperationAddsOneResponse := fun s i =>
  ⟨_, exec_eq_deliver i s⟩

theorem rlen_mono {m n : Nat} (h : m ≤ n) : rlen m ≤ rlen n :=
  rlen_le_iff.mpr (h.trans_lt (rlen_le_iff.mp le_rfl))

/-- A value with no more binary digits than a length that fits is carried by a length field (R8). -/
theorem fitsWidth_lw_of_lt {c : Config} {m v : Nat} (hfit : c.fits m = true) (hv : v < 2 ^ rlen m) :
    fitsWidth c.lw v = true := by
  refine fitsWidth_iff.mpr fun lw hlw => ?_
  cases hcap : c.cap with
  | none => simp [Config.lw, hcap] at hlw
  | some cap =>
    obtain rfl : max 1 (rlen cap) = lw := by simpa [Config.lw, hcap] using hlw
    have hr : rlen m ≤ max 1 (rlen cap) := (rlen_mono (le_of_fits hfit hcap)).trans (le_max_right ..)
    exact hv.trans_le (Nat.pow_le_pow_right Nat.two_pos hr)

theorem fitsWidth_lw_of_le {c : Config} {m v : Nat} (hfit : c.fits m = true) (hv : v ≤ m) : fitsWidth c.lw v = true :=
  fitsWidth_lw_of_lt hfit (hv.trans_lt (rlen_le_iff.mp le_rfl))

theorem fitsWidth_portWidth_of_lt {c : Config} {m v : Nat} (hfit : c.fits m = true) (hv : v < 2 ^ (m * c.ew)) :
    fitsWidth c.portWidth v = true := by
  refine fitsWidth_iff.mpr fun w hw => ?_
  cases hcap : c.cap with
  | none => simp [Config.portWidth, hcap] at hw
  | some cap =>
    obtain rfl : cap * c.ew = w := by simpa [Config.portWidth, hcap] using hw
    exact hv.trans_le (Nat.pow_le_pow_right Nat.two_pos (Nat.mul_le_mul_right _ (le_of_fits hfit hcap)))

/-- A response in range fits its ports. -/
theorem fits_ports_of_inRange {c : Config} {r : Response} (h : InRange c r) :
    fitsWidth c.lw r.errpos = true ∧ fitsWidth c.lw r.olen = true ∧ fitsWidth c.portWidth r.dout = true := by
  obtain ⟨hfit, herrpos, -, -, hdout, -⟩ := h
  exact ⟨fitsWidth_lw_of_le hfit herrpos, fitsWidth_lw_of_le hfit le_rfl, fitsWidth_portWidth_of_lt hfit hdout⟩

/-- Settles O39: every response is in range. -/
theorem responsesFitTheirPorts : Obligations.ResponsesFitTheirPorts := fun s i =>
  ⟨_, exec_eq_deliver i s, fits_ports_of_inRange (inRange_responseTo s.config i)⟩

end Sys2Proof.Machine
end

/-! The decoder and the encoder against each other (30_encoding.md R60, R61, R74): what the decoder accepts, and that each
undoes the other. -/
section
namespace Sys2Proof.Machine

/-- A command word fits `LW + 2` bits exactly when its length fits `LW` bits (R60). -/
theorem commandWord_lt_iff {op : BitVec 2} {len lw : Nat} : commandWord op len < 2 ^ (lw + 2) ↔ len < 2 ^ lw := by
  have := op.isLt
  rw [commandWord, Nat.pow_add]
  omega

/-- A packed word is accepted where CAP is bounded and the word fits; its fields are the operation and the length. -/
theorem decodeCommand_word_eq_ok_iff {c : Config} {cmd len : Nat} {op : BitVec 2} :
    decodeCommand c (.word cmd) = .ok (op, len) ↔
      ∃ lw, c.lw = some lw ∧ cmd < 2 ^ (lw + 2) ∧ opField cmd = op ∧ lenField cmd = len := by
  cases hlw : c.lw with
  | none => simp [decodeCommand, hlw]
  | some lw => by_cases hlt : cmd < 2 ^ (lw + 2) <;> simp [decodeCommand, hlw, hlt]

/-- A command given as its two fields is accepted when the length fits. -/
theorem decodeCommand_fields_eq_ok_iff {c : Config} {op op' : BitVec 2} {len len' : Nat} :
    decodeCommand c (.fields op len) = .ok (op', len') ↔ fitsWidth c.lw len = true ∧ op = op' ∧ len = len' := by
  cases hfit : fitsWidth c.lw len <;> simp [decodeCommand, hfit]

theorem instrOf_opcodeOf_eq_iff {op : BitVec 2} {len din : Nat} {i : Instr} :
    instrOf (opcodeOf op) len din = i ↔ op = i.opcode.code ∧ len = i.len ∧ i.din = din := by
  constructor
  · rintro rfl
    simp
  · rintro ⟨rfl, rfl, rfl⟩
    simp

/-- A request decodes to an instruction when its command and its `din` are accepted and are the instruction's. -/
theorem decodeRequest_eq_ok_iff {c : Config} {command : Command} {din : Nat} {i : Instr} :
    decodeRequest c ⟨command, din⟩ = .ok i ↔
      decodeCommand c command = .ok (i.opcode.code, i.len) ∧ fitsWidth c.portWidth din = true ∧ i.din = din := by
  cases hcommand : decodeCommand c command with
  | error e => simp [decodeRequest, hcommand]
  | ok fields =>
    obtain ⟨op, len⟩ := fields
    cases hdin : fitsWidth c.portWidth din with
    | true => simp [decodeRequest, hcommand, hdin, instrOf_opcodeOf_eq_iff, and_assoc]
    | false => simp [decodeRequest, hcommand, hdin]

/-- The command of a length that fits is read back, in either form. -/
theorem decodeCommand_encodeCommand {c : Config} {len : Nat} (op : BitVec 2) (hlen : fitsWidth c.lw len = true) :
    decodeCommand c (encodeCommand c op len) = .ok (op, len) := by
  cases hlw : c.lw with
  | none => simpa [encodeCommand, hlw] using decodeCommand_fields_eq_ok_iff.mpr ⟨hlen, rfl, rfl⟩
  | some lw =>
    have hlt : commandWord op len < 2 ^ (lw + 2) := commandWord_lt_iff.mpr (fitsWidth_iff.mp hlen lw hlw)
    simpa [encodeCommand, hlw] using
      decodeCommand_word_eq_ok_iff.mpr ⟨lw, hlw, hlt, opField_commandWord op len, lenField_commandWord op len⟩

theorem wellFormed_iff {c : Config} {i : Instr} :
    i.wellFormed c = true ↔ fitsWidth c.lw i.len = true ∧ fitsWidth c.portWidth i.din = true := by
  simp [Instr.wellFormed, Instr.lenFits, Instr.dinFits]

/-- Settles O41: the command and `din` are each read back. -/
theorem decodeOfEncodedInstruction : Obligations.DecodeOfEncodedInstruction := by
  intro c i hwf
  obtain ⟨hlen, hdin⟩ := wellFormed_iff.mp hwf
  exact decodeRequest_eq_ok_iff.mpr ⟨decodeCommand_encodeCommand i.opcode.code hlen, hdin, rfl⟩

/-- A packed word that decodes is the one its instruction is spelled with. -/
theorem encodeCommand_of_decodeCommand_word {c : Config} {cmd len : Nat} {op : BitVec 2}
    (h : decodeCommand c (.word cmd) = .ok (op, len)) :
    fitsWidth c.lw len = true ∧ encodeCommand c op len = .word cmd := by
  obtain ⟨lw, hlw, hlt, rfl, rfl⟩ := decodeCommand_word_eq_ok_iff.mp h
  rw [← commandWord_fields cmd, commandWord_lt_iff] at hlt
  simp [fitsWidth, encodeCommand, hlw, hlt, commandWord_fields]

/-- Settles O42, by what the decoder accepts for each form of a command. -/
theorem encodeOfDecodedRequest : Obligations.EncodeOfDecodedRequest := by
  refine ⟨fun c cmd din i h => ?_, fun c op len din i h => ?_⟩
  · obtain ⟨hcommand, hfit, rfl⟩ := decodeRequest_eq_ok_iff.mp h
    obtain ⟨hlen, hencode⟩ := encodeCommand_of_decodeCommand_word hcommand
    exact ⟨wellFormed_iff.mpr ⟨hlen, hfit⟩, by rw [encodeRequest, hencode]⟩
  · obtain ⟨hcommand, hfit, rfl⟩ := decodeRequest_eq_ok_iff.mp h
    obtain ⟨hlen, rfl, rfl⟩ := decodeCommand_fields_eq_ok_iff.mp hcommand
    exact ⟨wellFormed_iff.mpr ⟨hlen, hfit⟩, rfl, rfl, rfl⟩

/-- The operation field is the word under the mask of the opcode table. -/
theorem toNat_opField (cmd : Nat) : (opField cmd).toNat = cmd &&& 0x3 :=
  (Nat.and_two_pow_sub_one_eq_mod cmd 2).symm

theorem code_injective : Function.Injective Opcode.code :=
  Function.LeftInverse.injective opcodeOf_code

/-- Settles O43: a word in range decodes by its fields, and its lowest two bits are the code of one operation. -/
theorem everyCommandWordMatchesOneRow : Obligations.EveryCommandWordMatchesOneRow := by
  refine ⟨fun c lw cmd din hlw hlt hdin => ?_, fun cmd => ⟨opcodeOf (opField cmd), ?_, fun op hop => ?_⟩⟩
  · refine ⟨instrOf (opcodeOf (opField cmd)) (lenField cmd) din, decodeRequest_eq_ok_iff.mpr ⟨?_, hdin, ?_⟩, ?_⟩
    · exact decodeCommand_word_eq_ok_iff.mpr ⟨lw, hlw, hlt, by simp⟩
    · simp
    · simp [toNat_opField, lenField, Nat.shiftRight_eq_div_pow]
  · simp [toNat_opField]
  · refine code_injective (BitVec.eq_of_toNat_eq ?_)
    rw [code_opcodeOf, toNat_opField, hop]

/-- Settles O40: the five words, evaluated. -/
theorem commandWordsOfTheSpecDecode : Obligations.CommandWordsOfTheSpecDecode :=
  ⟨rfl, rfl, rfl, rfl, rfl⟩

end Sys2Proof.Machine
end

/-! Steps and runs (00_scope.md, 10_state.md, 20_memory.md, 70_reset_and_hazards.md): when a step stops, what a run keeps,
and that the response to a request depends on no other request. -/
section
namespace Sys2Proof.Machine

/-- What the decoder accepts is a value of the ports. -/
theorem presentable_of_decodeRequest {c : Config} {rq : Request} {i : Instr} (h : decodeRequest c rq = .ok i) :
    Presentable c rq := by
  obtain ⟨command, din⟩ := rq
  obtain ⟨hcommand, hdin, -⟩ := decodeRequest_eq_ok_iff.mp h
  refine ⟨?_, fitsWidth_iff.mp hdin⟩
  cases command with
  | word cmd =>
    obtain ⟨lw, hlw, hlt, -⟩ := decodeCommand_word_eq_ok_iff.mp hcommand
    exact ⟨lw, hlw, hlt⟩
  | fields op len =>
    obtain ⟨hlen, -, -⟩ := decodeCommand_fields_eq_ok_iff.mp hcommand
    exact fitsWidth_iff.mp hlen

/-- A step on a request that does not decode is refused. -/
theorem step_of_decode_error {s : State} {rq : Request} {rest : List Request} {e : DecodeError}
    (hs : s.requests = rq :: rest) (he : decodeRequest s.config rq = .error e) :
    step s = .refused (.notARequest e) := by
  simp [step, fetch, hs, he]

theorem step_of_requests_nil {s : State} (hs : s.requests = []) : step s = .refused .noRequest := by
  simp [step, fetch, hs]

/-- A state whose first request is taken off the port. -/
theorem advance_eq {s : State} {rq : Request} {rest : List Request} (hs : s.requests = rq :: rest) :
    advance s = { s with requests := rest } := by
  simp [advance, hs]

/-- Settles O44: `advance` takes the presented request off the port. -/
theorem stepRunsTheDecodedInstruction : Obligations.StepRunsTheDecodedInstruction := fun s rq rest i hs hi => by
  rw [step_of_decode hs hi, advance_eq hs]

/-- Settles O45: the decoder accepts the values of the ports and no others. -/
theorem stepStopsOnlyWithoutARequest : Obligations.StepStopsOnlyWithoutARequest := by
  refine fun s => ⟨step_of_requests_nil, fun rq rest hs => ⟨fun h => ⟨_, step_of_presentable hs h⟩, fun h => ?_⟩⟩
  cases hdecode : decodeRequest s.config rq with
  | ok i => exact absurd (presentable_of_decodeRequest hdecode) h
  | error e => exact ⟨e, step_of_decode_error hs hdecode⟩

/-- A run of `k + 1` steps is a step and a run of `k` steps. -/
theorem run_succ_next {M : Host.Core} {k : Nat} {s t : M.State} (h : M.run (k + 1) s = .next t) :
    ∃ u, M.step s = .next u ∧ M.run k u = .next t := by
  cases hstep : M.step s with
  | next u => exact ⟨u, rfl, by rw [← h, run_succ_of_step hstep]⟩
  | fault r => simp [Host.Core.run, hstep] at h
  | refused r => simp [Host.Core.run, hstep] at h

/-- Settles O47, by induction on the number of steps. -/
theorem runsKeepTheParameters : Obligations.RunsKeepTheParameters := by
  intro k
  induction k with
  | zero =>
    intro s t h
    obtain rfl : s = t := Host.Outcome.next.inj h
    exact ⟨rfl, rfl, Nat.zero_le _, [], rfl, (List.append_nil _).symm⟩
  | succ k ih =>
    intro s t h
    obtain ⟨u, hstep, hrun⟩ := run_succ_next (M := core) h
    obtain ⟨rq, rest, i, hrequests, -, rfl⟩ := step_next_deliver hstep
    obtain ⟨hconfig, htaken, hle, rs, hlen, hresponses⟩ := ih _ t hrun
    refine ⟨hconfig, ?_, ?_, responseTo s.config i :: rs, ?_, ?_⟩
    · simpa [hrequests] using htaken
    · simpa [hrequests] using hle
    · simp [hlen]
    · simpa using hresponses

/-- Settles O49: every request of a run gets the response `responseToRequest` gives it. -/
theorem operationsCommute : Obligations.OperationsCommute := by
  intro s a b ha hb
  refine ⟨responseToRequest s.config a, responseToRequest s.config b, ?_, ?_, ?_, ?_⟩
  · exact step_of_presentable (s := { s with requests := [a] }) rfl ha
  · exact step_of_presentable (s := { s with requests := [b] }) rfl hb
  · exact run_of_presentable (s := { s with requests := [a, b] }) rfl (by simp [ha, hb])
  · exact run_of_presentable (s := { s with requests := [b, a] }) rfl (by simp [ha, hb])

/-- Settles O50: `responseToRequest` depends on the parameters and the request alone. -/
theorem resetBlockAnswersAsAnyOther : Obligations.ResetBlockAnswersAsAnyOther := fun s rq h =>
  ⟨responseToRequest s.config rq, step_of_presentable (s := ⟨s.config, [rq], []⟩) rfl h,
    step_of_presentable (s := present rq s) rfl h⟩

end Sys2Proof.Machine
end

/-! The parity count as a threshold, and what follows for codeword lengths (40_parity_check_matrix.md sections 1 and 4):
`plan(n) <= r` exactly when `r` check bits are enough for `n` data bits. -/
section
namespace Sys2Proof.Machine

/-- More check bits are enough too. -/
theorem add_le_two_pow_of_le {n q r : Nat} (hqr : q ≤ r) (h : n + q + 1 ≤ 2 ^ q) : n + r + 1 ≤ 2 ^ r := by
  induction r, hqr using Nat.le_induction with
  | base => exact h
  | succ r _ ih => rw [Nat.pow_succ]; omega

/-- The two clauses of R90 as one equivalence. -/
theorem plan_le_iff {n r : Nat} : plan n ≤ r ↔ n + r + 1 ≤ 2 ^ r := by
  obtain ⟨hsat, hleast⟩ := plan_spec n
  exact ⟨fun h => add_le_two_pow_of_le h hsat, hleast r⟩

theorem plan_mono {n n' : Nat} (h : n ≤ n') : plan n ≤ plan n' := by
  have := plan_le_iff.mp (le_refl (plan n'))
  exact plan_le_iff.mpr (by omega)

@[simp] theorem plan_zero : plan 0 = 0 := rfl

/-- The last parity position lies before the last position of the codeword (R94). -/
theorem two_pow_plan_sub_one_lt {n : Nat} (h : 0 < plan n) : 2 ^ (plan n - 1) < n + plan n := by
  have := two_pow_lt_of_lt_plan (Nat.sub_one_lt_of_lt h)
  omega

/-- The closed form (R92): `r - 1` check bits are too few and `r` are enough. -/
theorem plan_eq_iff {n r : Nat} (hr : 2 ≤ r) : plan n = r ↔ 2 ^ (r - 1) - (r - 1) ≤ n ∧ n ≤ 2 ^ r - r - 1 := by
  have henough : plan n ≤ r ↔ n + r + 1 ≤ 2 ^ r := plan_le_iff
  have hfew : plan n ≤ r - 1 ↔ n + (r - 1) + 1 ≤ 2 ^ (r - 1) := plan_le_iff
  have hr1 : r - 1 < 2 ^ (r - 1) := Nat.lt_two_pow_self
  have hr0 : r < 2 ^ r := Nat.lt_two_pow_self
  omega

/-- One check bit is enough for no data only, and no data needs none (R91). -/
theorem plan_ne_one (n : Nat) : plan n ≠ 1 := by
  intro h
  have hn : n + 1 + 1 ≤ 2 ^ 1 := plan_le_iff.mp h.le
  obtain rfl : n = 0 := by omega
  simp at h

/-- Settles O2, by `plan` as a threshold. -/
theorem planGrowsAndHasItsClosedForm : Obligations.PlanGrowsAndHasItsClosedForm :=
  ⟨fun _ _ => plan_mono, fun _ => two_pow_plan_sub_one_lt, fun _ _ => plan_eq_iff, plan_zero, plan_ne_one⟩

/-- Settles O4, by the two counts' thresholds. -/
theorem decoderRecoversTheParityCount : Obligations.DecoderRecoversTheParityCount := fun n =>
  ⟨rlen_codewordLength n, two_pow_plan_sub_one_lt⟩

theorem rlen_two_pow (k : Nat) : rlen (2 ^ k) = k + 1 :=
  eq_of_forall_ge_iff fun r => by
    rw [rlen_le_iff, Nat.pow_lt_pow_iff_right Nat.one_lt_two, Nat.add_one_le_iff]

theorem rlen_two_pow_sub_one (k : Nat) : rlen (2 ^ k - 1) = k :=
  eq_of_forall_ge_iff fun r => by
    have : 0 < 2 ^ k := Nat.two_pow_pos k
    rw [rlen_le_iff, ← Nat.pow_le_pow_iff_right Nat.one_lt_two]
    omega

/-- The highest binary digit of a number is set. -/
theorem two_pow_rlen_sub_one_le {m : Nat} (h : 1 ≤ m) : 2 ^ (rlen m - 1) ≤ m := by
  have hpos : 0 < rlen m := Nat.pos_of_ne_zero fun h0 => by
    have : m < 2 ^ 0 := rlen_le_iff.mp h0.le
    omega
  by_contra hlt
  have := rlen_le_iff.mpr (Nat.lt_of_not_le hlt)
  omega

/-- No codeword length is a power of two: the last parity position is not the last position. -/
theorem add_plan_ne_two_pow (n k : Nat) : n + plan n ≠ 2 ^ k := by
  intro h
  have hplan : plan n = k + 1 := by rw [← rlen_codewordLength, h, rlen_two_pow]
  have := two_pow_plan_sub_one_lt (n := n) (by omega)
  rw [hplan, Nat.add_sub_cancel] at this
  omega

/-- A length that is no power of two has its last position beyond its last parity position, so its data bits need all of
its checks. -/
theorem plan_sub_rlen {m : Nat} (h : ∀ k, m ≠ 2 ^ k) : plan (m - rlen m) = rlen m := by
  have hle : rlen m ≤ m := rlen_le_iff.mpr Nat.lt_two_pow_self
  have hm : m < 2 ^ rlen m := rlen_le_iff.mp le_rfl
  have henough : plan (m - rlen m) ≤ rlen m := plan_le_iff.mpr (by omega)
  obtain hzero | hpos := Nat.eq_zero_or_pos m
  · omega
  · have hlow := two_pow_rlen_sub_one_le hpos
    have hne := h (rlen m - 1)
    have hfew : plan (m - rlen m) ≤ rlen m - 1 ↔ _ := plan_le_iff
    omega

/-- The only candidate for the data length of a codeword length (R100). -/
theorem eq_sub_rlen_of_eq_add_plan {m n : Nat} (h : m = n + plan n) : n = m - rlen m := by
  rw [h, rlen_codewordLength, Nat.add_sub_cancel]

theorem isCodewordLength_iff {m : Nat} : isCodewordLength m = true ↔ ∃ n, m = n + plan n := by
  rw [isCodewordLength, beq_iff_eq]
  constructor
  · exact fun h => ⟨m - rlen m, h.symm⟩
  · rintro ⟨n, h⟩
    rw [← eq_sub_rlen_of_eq_add_plan h, ← h]

/-- The codeword lengths are the numbers that are no powers of two (R100). -/
theorem isCodewordLength_iff_ne_two_pow {m : Nat} : isCodewordLength m = true ↔ ¬ ∃ k, m = 2 ^ k := by
  rw [isCodewordLength_iff]
  constructor
  · rintro ⟨n, rfl⟩ ⟨k, h⟩
    exact add_plan_ne_two_pow n k h
  · intro h
    refine ⟨m - rlen m, ?_⟩
    rw [plan_sub_rlen (not_exists.mp h)]
    exact (Nat.sub_add_cancel (rlen_le_iff.mpr Nat.lt_two_pow_self)).symm

/-- Settles O13: the only candidate for the data length is `m - rlen(m)`, and it fails at the powers of two alone. -/
theorem codewordLengthsAreNoPowersOfTwo : Obligations.CodewordLengthsAreNoPowersOfTwo :=
  ⟨fun _ => ⟨isCodewordLength_iff, isCodewordLength_iff_ne_two_pow⟩, fun _ _ => eq_sub_rlen_of_eq_add_plan⟩

end Sys2Proof.Machine
end

/-! The two classes of positions (40_parity_check_matrix.md section 2): the parity positions are listed by their
exponents, the data positions by `dpos`. -/
section
namespace Sys2Proof.Machine

/-- The parity positions of `[1, m]` in ascending order (R95). -/
theorem filter_isPow2_positions (m : Nat) : (positions m).filter isPow2 = (List.range (rlen m)).map (2 ^ ·) := by
  induction m with
  | zero => rfl
  | succ m ih =>
    rw [positions_succ, List.filter_append, ih]
    cases hpow : isPow2 (m + 1) with
    | false => simp [rlen_succ, hpow]
    | true =>
      obtain ⟨i, hi⟩ := (isPow2_iff (Nat.le_add_left 1 m)).mp hpow
      have hlast : rlen m = i := by rw [← rlen_two_pow_sub_one i, ← hi, Nat.add_sub_cancel]
      simp [hi, hlast, rlen_two_pow, List.range_succ]

/-- Settles O5, by induction on the length for the list. -/
theorem parityPositionsArePowersOfTwo : Obligations.ParityPositionsArePowersOfTwo :=
  ⟨fun _ => isPow2_iff, filter_isPow2_positions⟩

theorem length_dataPositions (m : Nat) : (dataPositions m).length = m - rlen m :=
  Nat.eq_sub_of_add_eq (length_dataPositions_add_rlen m)

theorem dataPositions_sortedLT (m : Nat) : (dataPositions m).SortedLT :=
  ((List.pairwise_lt_range' 1).filter _).sortedLT

/-- `dpos` lists the data positions of every length. -/
theorem dataPositions_eq_map_dpos (m : Nat) : dataPositions m = (List.range' 1 (m - rlen m)).map dpos := by
  refine List.ext_getElem? fun k => ?_
  obtain hk | hk := Nat.lt_or_ge k (m - rlen m)
  · have hpos := getElem?_dataPositions (m := m) (k := k + 1) (by omega) (by rw [length_dataPositions]; omega)
    simpa [hk, Nat.add_comm 1 k] using hpos
  · rw [List.getElem?_eq_none (by rwa [length_dataPositions]), List.getElem?_eq_none (by simpa using hk)]

/-- `dpos(k)` is a data position of every length that has `k` of them. -/
theorem dpos_mem_dataPositions {m k : Nat} (h1 : 1 ≤ k) (h2 : k ≤ (dataPositions m).length) :
    dpos k ∈ dataPositions m :=
  List.mem_of_getElem? (getElem?_dataPositions h1 h2)

/-- `dpos(k)` is a position, and no parity position (R96). -/
theorem dpos_spec {k : Nat} (h : 1 ≤ k) : 1 ≤ dpos k ∧ isPow2 (dpos k) = false := by
  obtain ⟨⟨hpos, -⟩, hdata⟩ := mem_dataPositions.mp (dpos_mem_dataPositions h (le_length_dataPositions k))
  exact ⟨hpos, hdata⟩

theorem dpos_lt_dpos {k l : Nat} (h1 : 1 ≤ k) (h2 : k < l) : dpos k < dpos l := by
  have hlen := le_length_dataPositions l
  have hk := getElem?_dataPositions h1 (h2.le.trans hlen)
  have hl := getElem?_dataPositions (by omega) hlen
  obtain ⟨hkin, hk⟩ := List.getElem?_eq_some_iff.mp hk
  obtain ⟨hlin, hl⟩ := List.getElem?_eq_some_iff.mp hl
  rw [← hk, ← hl]
  exact (dataPositions_sortedLT _).getElem_lt_getElem_of_lt (by omega)

theorem eq_of_dpos_eq {k l : Nat} (hk : 1 ≤ k) (hl : 1 ≤ l) (h : dpos k = dpos l) : k = l := by
  obtain hlt | heq | hgt := Nat.lt_trichotomy k l
  · exact absurd h (dpos_lt_dpos hk hlt).ne
  · exact heq
  · exact absurd h (dpos_lt_dpos hl hgt).ne'

/-- A data position is the last of the data positions up to it. -/
theorem dpos_sub_rlen {j : Nat} (hj : 1 ≤ j) (hdata : isPow2 j = false) : dpos (j - rlen j) = j := by
  obtain ⟨m, rfl⟩ : ∃ m, j = m + 1 := ⟨j - 1, by omega⟩
  have hlast : dataPositions (m + 1) = dataPositions m ++ [m + 1] := by simp [dataPositions, positions_succ, hdata]
  have hlen : m + 1 - rlen (m + 1) = (dataPositions m).length + 1 := by simp [← length_dataPositions, hlast]
  have hpos := getElem?_dataPositions (m := m + 1) (k := m + 1 - rlen (m + 1)) (by omega) (length_dataPositions _).ge
  rw [hlen, Nat.add_sub_cancel, hlast, List.getElem?_concat_length] at hpos
  rw [hlen]
  exact (Option.some.inj hpos).symm

/-- Settles O6: `dpos` reads the ascending list of data positions. -/
theorem dataPositionsAreEnumerated : Obligations.DataPositionsAreEnumerated := by
  refine ⟨fun k hk => ?_, fun j hj hdata => ?_, fun m => ⟨length_dataPositions m, dataPositions_eq_map_dpos m⟩,
    length_dataPositions_codewordLength⟩
  · obtain ⟨hpos, hdata⟩ := dpos_spec hk
    exact ⟨hdata, hpos, dpos_lt_dpos hk k.lt_succ_self⟩
  · refine ⟨j - rlen j, ?_, dpos_sub_rlen hj hdata⟩
    rw [← length_dataPositions]
    exact List.length_pos_of_mem (mem_dataPositions.mpr ⟨⟨hj, le_rfl⟩, hdata⟩)

/-- Settles O7: the last position of a codeword is no power of two, hence the last of its `k` data positions. -/
theorem dataPositionClosedForm : Obligations.DataPositionClosedForm := by
  intro k hk
  have hlast : 1 ≤ k + plan k := hk.trans (Nat.le_add_right ..)
  have hdata : isPow2 (k + plan k) = false := Bool.eq_false_iff.mpr fun hpow => by
    obtain ⟨i, hi⟩ := (isPow2_iff hlast).mp hpow
    exact add_plan_ne_two_pow k i hi
  have := dpos_sub_rlen hlast hdata
  rwa [← eq_sub_rlen_of_eq_add_plan rfl] at this

theorem mem_cover {i m j : Nat} : j ∈ cover i m ↔ 1 ≤ j ∧ j ≤ m ∧ j.testBit i = true := by
  rw [cover, List.mem_filter, mem_positions, covers_eq_testBit, and_assoc]

/-- Settles O8, by the bits of a position. -/
theorem checksCoverByPositionBit : Obligations.ChecksCoverByPositionBit :=
  ⟨covers_eq_testBit, fun _ _ _ => mem_cover, fun _ _ => covers_two_pow⟩

@[simp] theorem length_matrix (m : Nat) : (matrix m).length = rlen m := by simp [matrix]

/-- Row `i` of the matrix lists the entries of check `i` (R98). -/
theorem matrix_getD {m i : Nat} (h : i < rlen m) : (matrix m).getD i [] = (positions m).map (matrixEntry i) := by
  simp [matrix, List.getD_eq_getElem?_getD, h]

theorem bitAt_map_positions {m j : Nat} (f : Nat → Bit) (h1 : 1 ≤ j) (h2 : j ≤ m) :
    bitAt ((positions m).map f) j = f j := by
  obtain ⟨k, rfl⟩ : ∃ k, j = k + 1 := ⟨j - 1, by omega⟩
  simp [positions, List.getD_eq_getElem?_getD, show k < m by omega, Nat.add_comm 1 k]

/-- Exclusive-OR over the positions a check covers is the product with its row, modulo 2. -/
theorem xorOver_filter (js : List Nat) (p : Nat → Bool) (f : Nat → Bit) :
    xorOver (js.filter p) f = xorOver js fun j => p j && f j := by
  induction js with
  | nil => rfl
  | cons j js ih => cases hp : p j <;> simp [hp, ih]

/-- A check is the product of its row with the sequence (R98). -/
theorem chk_eq_row_product (i : Nat) (c : Bits) :
    chk i c = (List.zipWith and ((positions c.length).map (matrixEntry i)) c).foldr xor false := by
  have hrow : List.zipWith and ((positions c.length).map (matrixEntry i)) c =
      (positions c.length).map fun j => matrixEntry i j && bitAt c j := by
    conv_lhs => rw [← map_bitAt_positions c]
    simp [List.zipWith_map]
  rw [hrow, List.foldr_map, chk, cover, xorOver_filter]
  rfl

/-- Settles O9, through the rows of the matrix. -/
theorem matrixColumnsAreThePositions : Obligations.MatrixColumnsAreThePositions := by
  refine ⟨fun m => ⟨length_matrix m, ?_⟩, fun m i j hi h1 h2 => ?_, fun c i hi => ?_⟩
  · refine List.forall_mem_map.mpr fun i _ => ?_
    rw [List.length_map, length_positions]
  · rw [matrix_getD hi, bitAt_map_positions _ h1 h2, matrixEntry, covers_eq_testBit]
  · rw [matrix_getD hi, chk_eq_row_product]

end Sys2Proof.Machine
end

/-! The syndrome as a number (40_parity_check_matrix.md R99, 42_hamming_decoder.md R125 and R127): the exclusive-OR of the
positions that hold a 1, and how large it can be. -/
section
namespace Sys2Proof.Machine

/-- A check the sequence has no digit for covers no position. -/
theorem chk_eq_false_of_rlen_le {c : Bits} {i : Nat} (h : rlen c.length ≤ i) : chk i c = false := by
  have hnone : cover i c.length = [] := List.eq_nil_iff_forall_not_mem.mpr fun j hj => by
    obtain ⟨-, hle, hbit⟩ := mem_cover.mp hj
    have hlt : j < 2 ^ i := hle.trans_lt (rlen_le_iff.mp h)
    simp [Nat.testBit_lt_two_pow hlt] at hbit
  rw [chk, hnone, xorOver_nil]

/-- Bit `i` of the syndrome is check `i`, for every `i`. -/
theorem testBit_syndrome_eq_chk (c : Bits) (i : Nat) : (syndrome c).testBit i = chk i c := by
  rw [testBit_syndrome]
  obtain hlt | hle := Nat.lt_or_ge i (rlen c.length)
  · simp [hlt]
  · simp [chk_eq_false_of_rlen_le hle]

/-- The exclusive-OR of numbers, bit by bit. -/
theorem testBit_foldr_xor (js : List Nat) (i : Nat) :
    (js.foldr (fun j acc => j ^^^ acc) 0).testBit i = xorOver js fun j => j.testBit i := by
  induction js with
  | nil => simp
  | cons j js ih => simp [ih]

/-- Settles O10: in bit `i` both sides are the exclusive-OR over the positions that hold a 1 and are covered by check
`i`. -/
theorem syndromeIsTheXorOfTheOnes : Obligations.SyndromeIsTheXorOfTheOnes := by
  refine fun c => Nat.eq_of_testBit_eq fun i => ?_
  rw [testBit_syndrome_eq_chk, testBit_foldr_xor, chk, cover, xorOver_filter, xorOver_filter]
  refine xorOver_congr fun j _ => ?_
  rw [covers_eq_testBit, Bool.and_comm]

/-- Settles O11, by what the inversion does to each check. -/
theorem inversionMovesTheSyndrome : Obligations.InversionMovesTheSyndrome := fun _ _ => syndrome_flipBit

/-- The syndrome has no more binary digits than the length (R127). -/
theorem syndrome_lt (c : Bits) : syndrome c < 2 ^ rlen c.length :=
  Nat.lt_pow_two_of_testBit _ fun i hi => by rw [testBit_syndrome_eq_chk, chk_eq_false_of_rlen_le hi]

theorem syndrome_le_two_mul_length {c : Bits} (h : 1 ≤ c.length) : syndrome c ≤ 2 * c.length - 1 := by
  have hlow : 2 ^ (rlen c.length - 1) ≤ c.length := two_pow_rlen_sub_one_le h
  have hpow : 2 ^ rlen c.length ≤ 2 ^ (rlen c.length - 1 + 1) := Nat.pow_le_pow_right Nat.two_pos (by omega)
  rw [Nat.pow_succ] at hpow
  have := syndrome_lt c
  omega

/-- Settles O12: a number with as many digits as the length is below twice the length. -/
theorem syndromeFitsTheLengthField : Obligations.SyndromeFitsTheLengthField :=
  ⟨fun c => ⟨syndrome_lt c, fun hne => syndrome_le_two_mul_length (List.length_pos_of_ne_nil hne)⟩,
    fun _ c hfit => fitsWidth_lw_of_lt hfit (syndrome_lt c)⟩

end Sys2Proof.Machine
end

/-! The sequences of syndrome 0 (41_hamming_encoder.md R114, R116): each is the codeword of its data positions, and two of
one length differ in three positions. -/
section
namespace Sys2Proof.Machine

/-- Settles O16: each parity position makes its check zero. -/
theorem encodedChecksAreZero : Obligations.EncodedChecksAreZero := fun d =>
  ⟨fun _ => chk_encodeBits, syndrome_encodeBits d⟩

/-- A position outside the sequence reads as 0 (log 10). -/
theorem bitAt_eq_false_of_not_mem {c : Bits} {j : Nat} (h : j ∉ positions c.length) : bitAt c j = false := by
  cases j with
  | zero => rfl
  | succ k =>
    have hk : c.length ≤ k := by simpa using h
    simp [List.getD_eq_getElem?_getD, hk]

/-- The data positions determine what is read at every position that is no parity position. -/
theorem bitAt_congr_of_extractBits {c c' : Bits} (hl : c.length = c'.length) (h : extractBits c = extractBits c')
    {j : Nat} (hdata : isPow2 j = false) : bitAt c j = bitAt c' j := by
  by_cases hj : j ∈ positions c.length
  · rw [extractBits, extractBits, ← hl] at h
    exact List.map_inj_left.mp h j (mem_dataPositions.mpr ⟨mem_positions.mp hj, hdata⟩)
  · rw [bitAt_eq_false_of_not_mem hj, bitAt_eq_false_of_not_mem (hl ▸ hj)]

/-- With syndrome 0 each parity position holds the parity of the other positions its check covers. -/
theorem bitAt_two_pow_of_syndrome_zero {c : Bits} {i : Nat} (hc : syndrome c = 0) (hin : 2 ^ i ∈ positions c.length) :
    bitAt c (2 ^ i) = parityBit c i := by
  have hchk : chk i c = false := by rw [← testBit_syndrome_eq_chk, hc, Nat.zero_testBit]
  simpa [chk_eq_xor_parityBit hin] using hchk

/-- A sequence of syndrome 0 is determined by its length and its data positions. -/
theorem eq_of_extractBits_eq {c c' : Bits} (hl : c.length = c'.length) (hc : syndrome c = 0) (hc' : syndrome c' = 0)
    (h : extractBits c = extractBits c') : c = c' := by
  have hdata : ∀ j, isPow2 j = false → bitAt c j = bitAt c' j := fun j => bitAt_congr_of_extractBits hl h
  refine bits_ext hl fun j h1 h2 => ?_
  cases hpow : isPow2 j with
  | false => exact hdata j hpow
  | true =>
    obtain ⟨i, rfl⟩ := (isPow2_iff h1).mp hpow
    have hin : 2 ^ i ∈ positions c.length := mem_positions.mpr ⟨h1, h2⟩
    rw [bitAt_two_pow_of_syndrome_zero hc hin, bitAt_two_pow_of_syndrome_zero hc' (hl ▸ hin), parityBit_congr hl hdata]

theorem length_extractBits_codewordLength {c : Bits} {n : Nat} (hl : c.length = n + plan n) :
    (extractBits c).length = n := by
  rw [length_extractBits, ← eq_sub_rlen_of_eq_add_plan hl]

/-- A sequence of syndrome 0 and of a codeword length is the codeword of its data positions (R116). -/
theorem encodeBits_extractBits {c : Bits} {n : Nat} (hl : c.length = n + plan n) (hc : syndrome c = 0) :
    encodeBits (extractBits c) = c := by
  have hlen : (encodeBits (extractBits c)).length = c.length := by
    rw [length_encodeBits, length_extractBits_codewordLength hl, hl]
  exact eq_of_extractBits_eq hlen (syndrome_encodeBits _) hc (extractBits_encodeBits _)

theorem encodeBits_injective : Function.Injective encodeBits :=
  Function.LeftInverse.injective extractBits_encodeBits

/-- The sequences that DECODE accepts as codewords for `n` data bits. -/
abbrev ZeroSyndrome (n : Nat) : Type := { c : Bits // c.length = n + plan n ∧ syndrome c = 0 }

/-- ENCODE and EXTRACT between the data of length `n` and the sequences of syndrome 0 (R116). -/
def encodeEquiv (n : Nat) : List.Vector Bit n ≃ ZeroSyndrome n where
  toFun d := ⟨encodeBits d.val, by rw [length_encodeBits, d.property], syndrome_encodeBits d.val⟩
  invFun c := ⟨extractBits c.val, length_extractBits_codewordLength c.property.1⟩
  left_inv d := Subtype.ext (extractBits_encodeBits d.val)
  right_inv c := Subtype.ext (encodeBits_extractBits c.property.1 c.property.2)

/-- Settles O17: EXTRACT is the inverse of ENCODE. -/
theorem encoderIsABijectionOntoZeroSyndrome : Obligations.EncoderIsABijectionOntoZeroSyndrome := by
  refine ⟨fun d d' _ h => encodeBits_injective h, fun n c hl hc => ?_, fun n => ?_⟩
  · exact ⟨extractBits c, length_extractBits_codewordLength hl, encodeBits_extractBits hl hc⟩
  · calc Nat.card (ZeroSyndrome n) = Nat.card (List.Vector Bit n) := (Nat.card_congr (encodeEquiv n)).symm
      _ = 2 ^ n := by rw [Nat.card_eq_fintype_card, card_vector, Fintype.card_bool]

theorem distance_cons (x y : Bit) (a b : Bits) : distance (x :: a) (y :: b) = distance a b + (xor x y).toNat := by
  cases hxy : xor x y <;> simp [distance, hxy]

theorem flipBit_cons_one (x : Bit) (a : Bits) : flipBit (x :: a) 1 = (!x) :: a := rfl

theorem flipBit_cons_succ_succ (x : Bit) (a : Bits) (k : Nat) : flipBit (x :: a) (k + 2) = x :: flipBit a (k + 1) := rfl

@[simp] theorem distance_self (a : Bits) : distance a a = 0 := by
  induction a with
  | nil => rfl
  | cons x a ih => simp [distance_cons, ih]

/-- Inverting a position in which two sequences agree makes one more position in which they differ. -/
theorem distance_flipBit {a b : Bits} {p : Nat} (hl : a.length = b.length) (h1 : 1 ≤ p) (h2 : p ≤ a.length)
    (h : bitAt a p = bitAt b p) : distance (flipBit a p) b = distance a b + 1 := by
  obtain ⟨k, rfl⟩ : ∃ k, p = k + 1 := ⟨p - 1, by omega⟩
  induction a generalizing b k with
  | nil => simp at h2
  | cons x a ih =>
    obtain ⟨y, b, rfl⟩ : ∃ y b', b = y :: b' := List.exists_cons_of_length_eq_add_one hl.symm
    cases k with
    | zero =>
      obtain rfl : x = y := by simpa using h
      simp [flipBit_cons_one, distance_cons]
    | succ k =>
      have hrest := ih (b := b) (by simpa using hl) k (by omega) (by simpa using h2) (by simpa using h)
      rw [flipBit_cons_succ_succ, distance_cons, distance_cons, hrest]
      omega

/-- Different sequences of one length differ in a position, and in one position less when it is inverted in the first. -/
theorem exists_distance_flipBit {a b : Bits} (hl : a.length = b.length) (hne : a ≠ b) :
    ∃ p, 1 ≤ p ∧ p ≤ a.length ∧ bitAt a p ≠ bitAt b p ∧ distance a b = distance (flipBit a p) b + 1 := by
  obtain ⟨p, h1, h2, hp⟩ : ∃ p, 1 ≤ p ∧ p ≤ a.length ∧ bitAt a p ≠ bitAt b p := by
    by_contra hall
    push Not at hall
    exact hne (bits_ext hl hall)
  have hagree : bitAt (flipBit a p) p = bitAt b p := by rwa [bitAt_flipBit_self h1 h2, Bool.not_eq]
  have hback := distance_flipBit (by simpa using hl) h1 (by simpa using h2) hagree
  rw [flipBit_flipBit h1 h2] at hback
  exact ⟨p, h1, h2, hp, hback⟩

/-- Two different sequences of one length and of syndrome 0 differ in three positions: inverting one position or two
different ones does not keep the syndrome 0. -/
theorem three_le_distance {a b : Bits} (hl : a.length = b.length) (ha : syndrome a = 0) (hb : syndrome b = 0)
    (hne : a ≠ b) : 3 ≤ distance a b := by
  obtain ⟨p, hp1, hp2, hp, hdist⟩ := exists_distance_flipBit hl hne
  have hsyn : syndrome (flipBit a p) = p := by rw [syndrome_flipBit hp1 hp2, ha, Nat.zero_xor]
  have hne1 : flipBit a p ≠ b := by
    rintro rfl
    omega
  obtain ⟨q, hq1, hq2, hq, hdist1⟩ := exists_distance_flipBit (by simpa using hl) hne1
  have hpq : p ≠ q := by
    rintro rfl
    rw [bitAt_flipBit_self hp1 hp2, ne_eq, Bool.not_eq] at hq
    exact hq hp
  have hsyn1 : syndrome (flipBit (flipBit a p) q) = p ^^^ q := by rw [syndrome_flipBit hq1 hq2, hsyn]
  have hne2 : flipBit (flipBit a p) q ≠ b := by
    rintro rfl
    exact hpq (Nat.xor_eq_zero_iff.mp (hsyn1.symm.trans hb))
  obtain ⟨r, -, -, -, hdist2⟩ := exists_distance_flipBit (by simpa using hl) hne2
  omega

/-- Settles O18: codewords have syndrome 0. -/
theorem codewordsDifferInThreePositions : Obligations.CodewordsDifferInThreePositions := fun d d' hl hne =>
  three_le_distance (by rw [length_encodeBits, length_encodeBits, hl]) (syndrome_encodeBits d) (syndrome_encodeBits d')
    (encodeBits_injective.ne hne)

theorem bitAt_replicate_false (m j : Nat) : bitAt (List.replicate m false) j = false := by
  cases j with
  | zero => rfl
  | succ k => simp [List.getD_eq_getElem?_getD, List.getElem?_replicate]; split <;> rfl

theorem xorOver_false (js : List Nat) : xorOver js (fun _ => false) = false := by
  induction js with
  | nil => rfl
  | cons j js ih => simp [ih]

theorem syndrome_replicate_false (m : Nat) : syndrome (List.replicate m false) = 0 :=
  syndrome_eq_zero fun _ _ => (xorOver_congr fun j _ => bitAt_replicate_false m j).trans (xorOver_false _)

theorem extractBits_replicate_false (n : Nat) :
    extractBits (List.replicate (n + plan n) false) = List.replicate n false := by
  refine List.eq_replicate_iff.mpr ⟨length_extractBits_codewordLength (by simp), ?_⟩
  exact List.forall_mem_map.mpr fun j _ => bitAt_replicate_false _ j

/-- Settles O19: the all-zero sequence has syndrome 0 and all-zero data. -/
theorem encodeCornerCases : Obligations.EncodeCornerCases := by
  refine ⟨rfl, by decide, fun n => ?_⟩
  rw [← extractBits_replicate_false n]
  exact encodeBits_extractBits List.length_replicate (syndrome_replicate_false _)

end Sys2Proof.Machine
end

/-! DECODE and EXTRACT beyond single inversions (42_hamming_decoder.md R123, R125, R126, R128, R132), and where a result's
elements stand on the port (20_memory.md R42). -/
section
namespace Sys2Proof.Machine

theorem syndrome_flipBit_flipBit {c : Bits} {a b : Nat} (hc : syndrome c = 0) (ha1 : 1 ≤ a) (ha2 : a ≤ c.length)
    (hb1 : 1 ≤ b) (hb2 : b ≤ c.length) : syndrome (flipBit (flipBit c a) b) = a ^^^ b := by
  rw [syndrome_flipBit hb1 (by rwa [length_flipBit]), syndrome_flipBit ha1 ha2, hc, Nat.zero_xor]

/-- Inverting the position the syndrome names makes the syndrome 0 (R125). -/
theorem syndrome_flipBit_syndrome {c : Bits} (h1 : 1 ≤ syndrome c) (h2 : syndrome c ≤ c.length) :
    syndrome (flipBit c (syndrome c)) = 0 := by
  rw [syndrome_flipBit h1 h2, Nat.xor_self]

/-- The three positions of R126 are different, so inverting them in turn makes three differences. -/
theorem distance_flipBit_three {c : Bits} {a b p : Nat} (ha1 : 1 ≤ a) (ha2 : a ≤ c.length) (hb1 : 1 ≤ b)
    (hb2 : b ≤ c.length) (hp1 : 1 ≤ p) (hp2 : p ≤ c.length) (hab : a ≠ b) (hpa : p ≠ a) (hpb : p ≠ b) :
    distance (flipBit (flipBit (flipBit c a) b) p) c = 3 := by
  have hb : bitAt (flipBit c a) b = bitAt c b := bitAt_flipBit_other c hab.symm
  have hp : bitAt (flipBit (flipBit c a) b) p = bitAt c p := by
    rw [bitAt_flipBit_other _ hpb, bitAt_flipBit_other _ hpa]
  rw [distance_flipBit (by simp) hp1 (by simpa using hp2) hp, distance_flipBit (by simp) hb1 (by simpa using hb2) hb,
    distance_flipBit rfl ha1 ha2 rfl, distance_self]

/-- Settles O24: the syndrome is `a XOR b`, which is no position of a codeword or a third one. -/
theorem doubleInversionIsMiscorrectedOrReported : Obligations.DoubleInversionIsMiscorrectedOrReported := by
  intro s d a b din ha1 ha2 hb1 hb2 hab hcarries
  have hsyn := syndrome_flipBit_flipBit (syndrome_encodeBits d) ha1 ha2 hb1 hb2
  have hlen : (flipBit (flipBit (encodeBits d) a) b).length = (encodeBits d).length := by simp only [length_flipBit]
  refine ⟨fun hlt => ?_, fun hle => ?_⟩
  · exact answers_decode_of_eq hcarries (decodeResult_of_length_lt_syndrome (by rwa [hsyn, hlen]))
  · have hpos : 1 ≤ a ^^^ b := Nat.pos_of_ne_zero (mt Nat.xor_eq_zero_iff.mp hab)
    have hpa : a ^^^ b ≠ a := by simpa using Nat.ne_of_gt hb1
    have hpb : a ^^^ b ≠ b := by simpa using Nat.ne_of_gt ha1
    rw [← hsyn] at hpos hle hpa hpb ⊢
    rw [← hlen] at hle
    exact ⟨hpa, hpb, _, answers_decode_of_eq hcarries (decodeResult_of_syndrome_le hpos hle), by simp,
      syndrome_flipBit_syndrome hpos hle,
      distance_flipBit_three ha1 ha2 hb1 hb2 hpos (by rwa [← hlen]) hab hpa hpb⟩

/-- DECODE of a DECODE's result returns it unchanged, as OK or as UNRECOVERABLE again (R125). -/
theorem decodeResult_decodeResult (code : Bits) :
    ((decodeResult code).status = .corrected → syndrome (decodeResult code).seq = 0) ∧
    decodeResult (decodeResult code).seq =
      ⟨if (decodeResult code).status = .unrecoverable then .unrecoverable else .ok, 0, (decodeResult code).seq⟩ := by
  obtain hzero | hpos := Nat.eq_zero_or_pos (syndrome code)
  · simp [decodeResult_of_syndrome_zero hzero]
  obtain hle | hlt := le_or_gt (syndrome code) code.length
  · have hsyn := syndrome_flipBit_syndrome hpos hle
    simp [decodeResult_of_syndrome_le hpos hle, hsyn, decodeResult_of_syndrome_zero hsyn]
  · simp [decodeResult_of_length_lt_syndrome hlt]

/-- Settles O25, by the three outcomes of the first DECODE. -/
theorem decodingTwiceIsDecodingOnce : Obligations.DecodingTwiceIsDecodingOnce := by
  intro s len din code hcode
  obtain ⟨hcorrected, htwice⟩ := decodeResult_decodeResult code
  refine ⟨_, _, _, answers_decode hcode, hcorrected, fun t din' hconfig hcarries => ?_⟩
  rw [← hconfig] at hcarries
  exact answers_decode_of_eq hcarries htwice

/-- Settles O26: at a length of ones in binary every syndrome is 0 or a position. -/
theorem fullLengthsAreNeverUnrecoverable : Obligations.FullLengthsAreNeverUnrecoverable := by
  intro s k din code hlen hcode
  refine ⟨_, _, _, answers_decode hcode, ?_⟩
  have hle : syndrome code ≤ code.length := by
    have hlt := syndrome_lt code
    rw [hlen, rlen_two_pow_sub_one] at hlt
    omega
  obtain hzero | hpos := Nat.eq_zero_or_pos (syndrome code)
  · exact .inl (by rw [decodeResult_of_syndrome_zero hzero])
  · exact .inr (by rw [decodeResult_of_syndrome_le hpos hle])

/-- In a length that is a power of two the last check covers the last position alone (R128). -/
theorem cover_two_pow (k : Nat) : cover k (2 ^ k) = [2 ^ k] := by
  have hlow : ∀ j ∈ positions (2 ^ k - 1), ¬ covers k j = true := fun j hj => by
    obtain ⟨-, hle⟩ := mem_positions.mp hj
    have hlt : j < 2 ^ k := by have := Nat.two_pow_pos k; omega
    simp [covers_eq_testBit, Nat.testBit_lt_two_pow hlt]
  rw [cover, ← Nat.sub_add_cancel (Nat.one_le_two_pow (n := k)), positions_succ, List.filter_append,
    List.filter_eq_nil_iff.mpr hlow, Nat.sub_add_cancel (Nat.one_le_two_pow (n := k))]
  simp [covers_two_pow]

/-- There, syndrome 0 requires the last position to be 0. -/
theorem bitAt_last_of_syndrome_zero {k : Nat} {code : Bits} (hlen : code.length = 2 ^ k) (hc : syndrome code = 0) :
    bitAt code (2 ^ k) = false := by
  have hchk : chk k code = bitAt code (2 ^ k) := by simp [chk, hlen, cover_two_pow]
  rw [← hchk, ← testBit_syndrome_eq_chk, hc, Nat.zero_testBit]

/-- Settles O27: no outcome depends on the length being a codeword length; the four examples are evaluated. -/
theorem powerOfTwoLengthsAreServed : Obligations.PowerOfTwoLengthsAreServed := by
  refine ⟨fun k => ⟨rlen_two_pow k, cover_two_pow k⟩, fun _ _ => bitAt_last_of_syndrome_zero,
    fun s k din code hlen hcode => ?_, by decide, by decide, by decide, by decide⟩
  refine ⟨_, _, _, _, answers_decode hcode, decodeResult_status code, answers_extract hcode, ?_⟩
  rw [length_extractBits, hlen, rlen_two_pow]

/-- EXTRACT does not see an inverted parity position (R132). -/
theorem extractBits_flipBit_two_pow (code : Bits) (i : Nat) : extractBits (flipBit code (2 ^ i)) = extractBits code :=
  extractBits_congr (length_flipBit ..) fun j hj => bitAt_flipBit_other code fun h => by simp [h] at hj

/-- An inverted data position inverts the data bit (R132). -/
theorem extractBits_flipBit_dpos (code : Bits) {k : Nat} (h : 1 ≤ k) :
    extractBits (flipBit code (dpos k)) = flipBit (extractBits code) k := by
  have hlen : (extractBits (flipBit code (dpos k))).length = (extractBits code).length := by
    simp only [length_extractBits, length_flipBit]
  refine bits_ext (by rw [hlen, length_flipBit]) fun j h1 h2 => ?_
  rw [bitAt_extractBits h1 h2]
  rw [hlen] at h2
  by_cases hjk : j = k
  · subst hjk
    have hin : dpos j ∈ dataPositions code.length := dpos_mem_dataPositions h (by simpa [extractBits] using h2)
    obtain ⟨⟨hpos, hle⟩, -⟩ := mem_dataPositions.mp hin
    rw [bitAt_flipBit_self hpos hle, bitAt_flipBit_self h1 h2, bitAt_extractBits h1 h2]
  · have hne : dpos j ≠ dpos k := fun heq => hjk (eq_of_dpos_eq h1 h heq)
    rw [bitAt_flipBit_other _ hne, bitAt_flipBit_other _ hjk, bitAt_extractBits h1 h2]

/-- Settles O29: EXTRACT reads the data positions alone, each once. -/
theorem extractChecksNothing : Obligations.ExtractChecksNothing :=
  ⟨extractBits_flipBit_two_pow, fun code _ => extractBits_flipBit_dpos code⟩

theorem bitAt_cons_succ_succ (b : Bit) (d : Bits) (k : Nat) : bitAt (b :: d) (k + 2) = bitAt d (k + 1) := rfl

/-- The element at position `k` of a packed sequence is its bit there. -/
theorem elemAt_packBits {ew : Nat} (hew : 1 ≤ ew) (d : Bits) {k : Nat} (hk : 1 ≤ k) :
    elemAt ew (packBits ew d) k = (bitAt d k).toNat := by
  obtain ⟨k, rfl⟩ : ∃ n, k = n + 1 := ⟨k - 1, by omega⟩
  induction d generalizing k with
  | nil => simp [packBits, elemAt]
  | cons b d ih =>
    obtain ⟨hfirst, habove⟩ := elemAt_packBits_cons hew b d
    cases k with
    | zero => exact hfirst
    | succ k => rw [habove (k + 1) (by omega), ih k (by omega), bitAt_cons_succ_succ]

/-- Settles O36: bit `b` of the element at position `k`. -/
theorem resultElementsStandInOrder : Obligations.ResultElementsStandInOrder := by
  intro ew d k b hew hb hk
  have helem : (elemAt ew (packBits ew d) k).testBit b = (packBits ew d).testBit ((k - 1) * ew + b) := by
    simp [testBit_elemAt, hb]
  rw [← helem, elemAt_packBits hew d hk, Nat.testBit_bool_toNat]

end Sys2Proof.Machine
end

/-! RECOVER (42_hamming_decoder.md R133): two requests the host issues one after the other, the second built from the
first one's response. -/
section
namespace Sys2Proof.Machine

/-- A well-formed instruction that is issued is executed, and the host reads its response. -/
theorem issue_of_wellFormed {i : Instr} {s : State} (h : i.wellFormed s.config = true) :
    issue i s = some (deliver (responseTo s.config i) s, responseTo s.config i) := by
  have hdecode : decodeRequest s.config (encodeRequest s.config i) = .ok i := decodeOfEncodedInstruction s.config i h
  have hstep : step (present (encodeRequest s.config i) s) = .next (deliver (responseTo s.config i) s) := by
    rw [step_of_decode (s := present (encodeRequest s.config i) s) rfl hdecode, advance_present, exec_eq_deliver]
  simp [issue, hstep]

/-- A carried sequence is performed on as the bits it is. -/
theorem answer_of_carries {c : Config} {op : Opcode} {len din : Nat} {d : Bits} (hop : op ≠ .reserved)
    (hencode : op ≠ .encode) (h : Carries c len din d) (f : Bits → Result) :
    answer c op f len din = responseOf c.ew (f d) := by
  obtain ⟨hfit, -, hoperand⟩ := h
  have hv := validate_eq_none hop hfit (hasNonBinary_eq_false hoperand) fun h => absurd h hencode
  simp [answer, hv, operandBits_eq hoperand]

theorem responseTo_decode {c : Config} {len din : Nat} {code : Bits} (h : Carries c len din code) :
    responseTo c (.decode len din) = responseOf c.ew (decodeResult code) :=
  answer_of_carries (op := .decode) nofun nofun h decodeResult

theorem responseTo_extract {c : Config} {len din : Nat} {code : Bits} (h : Carries c len din code) :
    responseTo c (.extract len din) = responseOf c.ew (extractResult code) :=
  answer_of_carries (op := .extract) nofun nofun h extractResult

theorem deliver_deliver (r1 r2 : Response) (s : State) :
    deliver r2 (deliver r1 s) = { s with responses := s.responses ++ [r1, r2] } := by
  simp [deliver]

/-- A packed sequence that fits can be presented again. -/
theorem carries_packBits {c : Config} {d : Bits} (h : c.fits d.length = true) :
    Carries c d.length (packBits c.ew d) d :=
  ⟨h, rfl, operand_packBits c.ew_pos d⟩

/-- RECOVER issues an EXTRACT of the DECODE's response when that is OK or CORRECTED. -/
theorem recover_of_success {s : State} {len din : Nat} {r : Response}
    (hwf : (Instr.decode len din).wellFormed s.config = true) (hr : responseTo s.config (.decode len din) = r)
    (hst : r.status = .ok ∨ r.status = .corrected) :
    recover len din s =
      some ({ s with responses := s.responses ++ [r, responseTo s.config (.extract r.olen r.dout)] },
        { responseTo s.config (.extract r.olen r.dout) with status := r.status, errpos := r.errpos }) := by
  have hrange : InRange s.config r := hr ▸ inRange_responseTo s.config (.decode len din)
  obtain ⟨-, holen, hdout⟩ := fits_ports_of_inRange hrange
  have hextract := issue_of_wellFormed (i := .extract r.olen r.dout) (s := deliver r s)
    (wellFormed_iff.mpr ⟨holen, hdout⟩)
  rw [← deliver_deliver]
  simp [recover, issue_of_wellFormed hwf, hr, hst, hextract]

/-- RECOVER ends with the DECODE when that is neither OK nor CORRECTED. -/
theorem recover_of_failure {s : State} {len din : Nat} {r : Response}
    (hwf : (Instr.decode len din).wellFormed s.config = true) (hr : responseTo s.config (.decode len din) = r)
    (hst : ¬ (r.status = .ok ∨ r.status = .corrected)) :
    recover len din s = some (deliver r s, noData r.status) := by
  simp [recover, issue_of_wellFormed hwf, hr, hst]

/-- Settles O31: neither status is one of success. -/
theorem recoverWithholdsDataOnFailure : Obligations.RecoverWithholdsDataOnFailure := by
  intro s len din r hwf hexec hst
  have hr : responseTo s.config (.decode len din) = r := by
    rw [exec_eq_deliver] at hexec
    simpa [deliver] using hexec
  have hfail : ¬ (r.status = .ok ∨ r.status = .corrected) := by
    obtain h | h := hst <;> simp [h]
  exact recover_of_failure hwf hr hfail

/-- A carried sequence can be presented to DECODE when its `din` fits the port. -/
theorem wellFormed_decode_of_carries {c : Config} {len din : Nat} {code : Bits}
    (hdin : fitsWidth c.portWidth din = true) (h : Carries c len din code) :
    (Instr.decode len din).wellFormed c = true := by
  obtain ⟨hfit, -, -⟩ := h
  exact wellFormed_iff.mpr ⟨fitsWidth_lw_of_le hfit le_rfl, hdin⟩

/-- RECOVER of a carried sequence whose DECODE succeeds with the sequence `c` answers the data positions of `c`. -/
theorem recover_of_decodeResult {s : State} {len din e : Nat} {code c : Bits} {st : Status}
    (hdin : fitsWidth s.config.portWidth din = true) (hcode : Carries s.config len din code)
    (hdecode : decodeResult code = ⟨st, e, c⟩) (hst : st = .ok ∨ st = .corrected) :
    ∃ r1 r2 r : Response, recover len din s = some ({ s with responses := s.responses ++ [r1, r2] }, r) ∧
      r.status = st ∧ r.errpos = e ∧ Shows s.config r (extractBits c) := by
  have hfit : s.config.fits c.length = true := by
    obtain ⟨hlen, rfl, -⟩ := hcode
    simpa only [hdecode] using (resultInRange_decode hlen).fits
  have hr : responseTo s.config (.decode len din) = responseOf s.config.ew ⟨st, e, c⟩ := by
    rw [responseTo_decode hcode, hdecode]
  have hshows : Shows s.config (responseTo s.config (.extract c.length (packBits s.config.ew c))) (extractBits c) := by
    rw [responseTo_extract (carries_packBits hfit)]
    exact shows_responseOf s.config (extractResult c)
  exact ⟨_, _, _, recover_of_success (wellFormed_decode_of_carries hdin hcode) hr hst, rfl, rfl, hshows⟩

/-- The data positions of a sequence with one position inverted, read in the sequence. -/
theorem extractBits_flipBit {c : Bits} {p : Nat} (h1 : 1 ≤ p) (h2 : p ≤ c.length) :
    extractBits (flipBit c p) = (dataPositions c.length).map fun j => if j = p then !bitAt c j else bitAt c j := by
  rw [extractBits, length_flipBit]
  exact List.map_congr_left fun j _ => bitAt_flipBit h1 h2 j

/-- Settles O52, by the three cases of the syndrome. -/
theorem recoverFollowsTheSyndrome : Obligations.RecoverFollowsTheSyndrome := by
  intro s len din code hdin hcode
  have ⟨_, hlen, _⟩ := hcode
  subst hlen
  refine ⟨fun hzero => ?_, fun hpos hle => ?_, fun hlt => ?_⟩
  · exact recover_of_decodeResult hdin hcode (decodeResult_of_syndrome_zero hzero) (.inl rfl)
  · rw [← extractBits_flipBit hpos hle]
    exact recover_of_decodeResult hdin hcode (decodeResult_of_syndrome_le hpos hle) (.inr rfl)
  · have hr : responseTo s.config (.decode code.length din) = responseOf s.config.ew ⟨.unrecoverable, 0, code⟩ := by
      rw [responseTo_decode hcode, decodeResult_of_length_lt_syndrome hlt]
    exact ⟨_, recover_of_failure (wellFormed_decode_of_carries hdin hcode) hr (by simp)⟩

/-- Settles O30: DECODE restores the codeword, whose data positions hold the data. -/
theorem recoverDeliversTheData : Obligations.RecoverDeliversTheData := by
  intro s d din hdin
  have hsyn := syndrome_encodeBits d
  refine ⟨fun hcode => ?_, fun p h1 h2 hcode => ?_⟩
  · simpa only [extractBits_encodeBits] using
      recover_of_decodeResult hdin hcode (decodeResult_of_syndrome_zero hsyn) (.inl rfl)
  · simpa only [extractBits_encodeBits] using
      recover_of_decodeResult hdin hcode (decodeResult_flipBit_of_syndrome_zero hsyn h1 h2) (.inr rfl)

end Sys2Proof.Machine
end
